-- ==== Sys2Proof/Word.lean ====
section
/-! DEFINITION. The words of the machine: bytes, 16-bit words, register selectors and literals
(`00_scope.md` R8, R10; `10_state.md` R20). All values are unsigned. -/

namespace Sys2Proof

/-- An 8-bit value: a general register, a timer, a byte of memory, the literal `nn`. -/
abbrev Byte := BitVec 8

/-- A 16-bit value: `I`, `PC`, a return address, an instruction word. -/
abbrev Word := BitVec 16

/-- A 4-bit literal or a 4-bit field of an instruction word ("Nibble", `00_scope.md` R12). -/
abbrev Nibble := BitVec 4

/-- A 12-bit address literal `nnn`. -/
abbrev Addr12 := BitVec 12

/-- A register selector or key index, 0 to 15. -/
abbrev Reg := Fin 16

/-- `zext_16(v)` (`00_scope.md` R8, `30_encoding.md` R73). -/
def zext16 {w : Nat} (v : BitVec w) : Word := v.setWidth 16

/-- VF, the flag register, is `V[15]` (`10_state.md` R23). -/
def VF : Reg := 15

end Sys2Proof
end

