-- ==== Sys2Proof/Config.lean ====
section
/-! DEFINITION. What an implementation fixes: the parameters of `00_scope.md` R6, and the free
value of the model, the random byte (`41_alu.md` R142). -/

namespace Sys2Proof

/-- `MEM_SIZE`, 4096 bytes (`00_scope.md` R6). -/
def memSize : Nat := 4096

/-- `PROGRAM_START`, 0x200 (`00_scope.md` R6). -/
def programStart : Nat := 0x200

/-- `MAX_PROGRAM = MEM_SIZE - PROGRAM_START`, 3584 bytes (`00_scope.md` R6). -/
def maxProgram : Nat := memSize - programStart

/-- The 80 bytes of the glyph table, 16 glyphs of 5 bytes (`70_reset_and_hazards.md` R271). -/
abbrev GlyphTable := Vector Byte 80

/-- The parameters of one core that the spec leaves to the implementation (`00_scope.md` R6). -/
structure Config where
  /-- `STRICT_DECODE`: unexamined bits must be zero (`30_encoding.md` R76, R77; D3). -/
  strictDecode : Bool
  /-- `PROTECT_LOW_MEMORY`: a program write below 0x200 is an error (`20_memory.md` R57; D6). -/
  protectLow : Bool
  /-- `GLYPH_TABLE` (`70_reset_and_hazards.md` R271; D15). -/
  glyphTable : GlyphTable
  deriving DecidableEq, Repr

/-- The default of `GLYPH_TABLE`, the standard hexadecimal font, one glyph a line
(`70_reset_and_hazards.md` R271, the spec's general knowledge G6). PRESUMED, log 3; unsafe. -/
def standardFont : GlyphTable :=
  #v[0xF0, 0x90, 0x90, 0x90, 0xF0,
     0x20, 0x60, 0x20, 0x20, 0x70,
     0xF0, 0x10, 0xF0, 0x80, 0xF0,
     0xF0, 0x10, 0xF0, 0x10, 0xF0,
     0x90, 0x90, 0xF0, 0x10, 0x10,
     0xF0, 0x80, 0xF0, 0x10, 0xF0,
     0xF0, 0x80, 0xF0, 0x90, 0xF0,
     0xF0, 0x10, 0x20, 0x40, 0x40,
     0xF0, 0x90, 0xF0, 0x90, 0xF0,
     0xF0, 0x90, 0xF0, 0x10, 0xF0,
     0xF0, 0x90, 0xF0, 0x90, 0x90,
     0xE0, 0x90, 0xE0, 0x90, 0xE0,
     0xF0, 0x80, 0x80, 0x80, 0xF0,
     0xE0, 0x90, 0x90, 0x90, 0xE0,
     0xF0, 0x80, 0xF0, 0x80, 0xF0,
     0xF0, 0x80, 0xF0, 0x80, 0x80]

/-- The spec's defaults of the three parameters (`00_scope.md` R6). DESIGN CHOICE of the model:
the core that `State.reset` describes has them, log 2; unsafe for a claim that reads a parameter
from `State.reset`, safe for a claim about every state. -/
def Config.default : Config where
  strictDecode := false
  protectLow := true
  glyphTable := standardFont

/-- The one constraint on the parameters: byte 0 of the glyph table is 0xF0
(`70_reset_and_hazards.md` R271). -/
abbrev Config.wf (c : Config) : Prop := c.glyphTable[0] = 0xF0

/-- The free value: the random byte of the `k`-th CXNN executed, any value 0 to 255
(`41_alu.md` R142; D14). It has no body, so nothing can be proved of its value. Log 4; safe. -/
opaque Config.rand8 : Nat → Byte

end Sys2Proof
end

