-- ==== Sys2Proof/Machine/State.lean ====
section
/-! DEFINITION. The state of the core (`10_state.md` R20), its reset value (R38), and the reasons a
command can stop (`60_exceptions.md` R232). -/

namespace Sys2Proof.Machine

/-- The 4096 bytes of `mem`, held as the cells that differ from the reset contents: addresses
strictly rising, no cell equal to what an unlisted address reads as (log 8). -/
abbrev Memory := List Host.Cell

/-- The frame buffer, 32 rows of 64 pixels, row 0 at the top, column 0 at the left: `disp[y][x]`
(`10_state.md` R30). -/
abbrev Screen := Vector (Vector Bool 64) 32

/-- The architectural state (`10_state.md` R20). The last two fields are the model's own. -/
structure State where
  /-- `mem` (`10_state.md` R35). -/
  mem : Memory
  /-- `V[0..15]` (`10_state.md` R21). -/
  v : Vector Byte 16
  /-- `I`, not masked (`10_state.md` R25). -/
  i : Word
  /-- `PC` (`10_state.md` R26). -/
  pc : Word
  /-- `stack[0..15]` (`10_state.md` R27). -/
  stack : Vector Word 16
  /-- `SP`, the next free slot, 0 to 16 (`10_state.md` R27, R34). -/
  sp : Fin 17
  /-- `DT` (`10_state.md` R28). -/
  dt : Byte
  /-- `ST` (`10_state.md` R29). -/
  st : Byte
  /-- `disp` (`10_state.md` R30). -/
  disp : Screen
  /-- `keys[0..15]`, `true` means pressed (`10_state.md` R31). -/
  keys : Vector Bool 16
  /-- `redrawPending` (`10_state.md` R32). -/
  redrawPending : Bool
  /-- `awaitingKey` (`10_state.md` R33). -/
  awaitingKey : Bool
  /-- `keyTargetRegister` (`10_state.md` R33). -/
  keyTarget : Reg
  /-- The model's own: the index of the next random byte `Config.rand8` (log 4). -/
  draws : Nat
  /-- The model's own: the parameters of this core, fixed for its life (`00_scope.md` R6,
  `10_state.md` R36; log 2). -/
  cfg : Config
  deriving DecidableEq, Repr

/-- The state after RESET of a core with the parameters `cfg` (`10_state.md` R38,
`70_reset_and_hazards.md` R270). Memory lists nothing: an unlisted address reads as its reset
contents, the glyph table below 0x050 and zero above. `draws` is not the spec's. -/
def State.resetWith (cfg : Config) (draws : Nat) : State where
  mem := []
  v := Vector.replicate 16 0x00
  i := 0x0000
  pc := 0x0200
  stack := Vector.replicate 16 0x0000
  sp := 0
  dt := 0x00
  st := 0x00
  disp := Vector.replicate 32 (Vector.replicate 64 false)
  keys := Vector.replicate 16 false
  redrawPending := true
  awaitingKey := false
  keyTarget := 0
  draws := draws
  cfg := cfg

/-- The machine right after reset, with the spec's default parameters (log 2) and the random
byte's index at 0 (DESIGN CHOICE, log 4). -/
def State.reset : State := State.resetWith Config.default 0

/-- The errors of `60_exceptions.md` R232. `info` is the info value the rule gives; `after` is the
state the failing command leaves (R231, R234), which the core goes on from if its driver does
(R233). A model's run ends at a fault (R236). Every one of them is safe: the spec itself names the
error and says when it is raised (log 5). -/
inductive Fault where
  /-- Code 1, raised by LOAD with more than 3584 bytes (`70_reset_and_hazards.md` R273). Safe. -/
  | oversizeProgram (info : Nat) (after : State)
  /-- Code 2, raised by CALL with SP 16; info is the instruction's address (`40_flow.md` R102).
  Safe. -/
  | stackOverflow (info : Nat) (after : State)
  /-- Code 3, raised by RET with SP 0; info is the instruction's address (`40_flow.md` R100).
  Safe. -/
  | stackUnderflow (info : Nat) (after : State)
  /-- Code 4, raised by STEP on an illegal word; info is the word (`30_encoding.md` R79). Safe. -/
  | unknownOpcode (info : Nat) (after : State)
  /-- Code 5, raised by the fetch beyond 0xFFF and by DRW, LD B, LD [I], LD Vx,[I] through an
  address above 0xFFF; info is the first failing address (`20_memory.md` R56, R57,
  `30_encoding.md` R82). Safe. -/
  | memoryOutOfRange (info : Nat) (after : State)
  /-- Code 6, raised by LD B and LD [I] below 0x200 when PROTECT_LOW_MEMORY; info is the first
  failing address (`20_memory.md` R57). Safe. -/
  | protectedWrite (info : Nat) (after : State)
  /-- Code 7, raised by the fetch at an odd PC; info is PC (`30_encoding.md` R82). Safe. -/
  | fetchMisaligned (info : Nat) (after : State)
  /-- Code 8, raised by the fetch below 0x200; info is PC (`30_encoding.md` R82). Safe. -/
  | fetchBelowProgramStart (info : Nat) (after : State)
  /-- Code 9, raised by SKP and SKNP with V[x] above 15; info is V[x] (`44_timers_keys.md` R210,
  R211). Safe. -/
  | keyIndexOutOfRange (info : Nat) (after : State)
  deriving DecidableEq, Repr

/-- Why the model gives no meaning at all. -/
inductive Refusal where
  /-- An instruction with no meaning in the model, raised by `exec`'s arm for it alone. Safe. No
  arm raises it: every instruction of the opcode table has its meaning. -/
  | notModelled (mnemonic : String)
  /-- A command other than RESET before the first RESET, raised by `Device.command`
  (`10_state.md` R39, `70_reset_and_hazards.md` R272; log 7). Safe. -/
  | beforeFirstReset
  deriving DecidableEq, Repr

/-- What a command answers. -/
abbrev Outcome := Host.Outcome State Fault Refusal

end Sys2Proof.Machine
end

