-- ==== Sys2Proof/Machine/Memory.lean ====
section
/-! DEFINITION. Memory: what an unlisted address reads as, reading and writing one byte, writing a
run of bytes, and the canonical form (`20_memory.md`; log 8). -/

namespace Sys2Proof.Machine

/-- What an address that memory does not list reads as, its reset contents: the glyph table at
0x000-0x04F, zero above (`10_state.md` R38, `20_memory.md` R52). -/
def resetByte (cfg : Config) (a : Nat) : Byte :=
  if h : a < 80 then cfg.glyphTable[a] else 0

/-- The byte at an address. -/
def Memory.read (cfg : Config) (m : Memory) (a : Nat) : Byte :=
  match m with
  | [] => resetByte cfg a
  | (k, b) :: rest => if a = k then b else Memory.read cfg rest a

/-- Takes the cells at `a` out. -/
def Memory.erase (m : Memory) (a : Nat) : Memory :=
  match m with
  | [] => []
  | (k, b) :: rest => if a = k then Memory.erase rest a else (k, b) :: Memory.erase rest a

/-- Puts a cell in, before the first one at a higher address. -/
def Memory.insert (m : Memory) (a : Nat) (b : Byte) : Memory :=
  match m with
  | [] => [(a, b)]
  | (k, c) :: rest => if a < k then (a, b) :: (k, c) :: rest else (k, c) :: Memory.insert rest a b

/-- Writes one byte and keeps the canonical form: writing what an unlisted address reads as removes
the cell. -/
def Memory.write (cfg : Config) (m : Memory) (a : Nat) (b : Byte) : Memory :=
  if b = resetByte cfg a then m.erase a else (m.erase a).insert a b

/-- Writes a run of bytes at ascending addresses from `a`. -/
def Memory.writeRun (cfg : Config) (m : Memory) (a : Nat) (bytes : List Byte) : Memory :=
  match bytes with
  | [] => m
  | b :: rest => Memory.writeRun cfg (m.write cfg a b) (a + 1) rest

/-- Every listed address is at least `lo` and below 0x1000, addresses rise strictly, and no cell
equals what an unlisted address reads as. -/
def Memory.wfFrom (cfg : Config) (lo : Nat) (m : Memory) : Bool :=
  match m with
  | [] => true
  | (k, b) :: rest =>
    decide (lo ≤ k) && decide (k < memSize) && decide (b ≠ resetByte cfg k)
      && Memory.wfFrom cfg (k + 1) rest

/-- The canonical form of memory (log 8). -/
def Memory.wf (cfg : Config) (m : Memory) : Bool := Memory.wfFrom cfg 0 m

/-- The byte at an address of a state's memory (`10_state.md` R35). -/
def State.peek (s : State) (a : Nat) : Byte := s.mem.read s.cfg a

/-- The state with one byte of memory written, no check made (`20_memory.md` R67). -/
def State.poke (s : State) (a : Nat) (b : Byte) : State := { s with mem := s.mem.write s.cfg a b }

/-- The state with a run of bytes written, no check made. -/
def State.pokeRun (s : State) (a : Nat) (bytes : List Byte) : State :=
  { s with mem := s.mem.writeRun s.cfg a bytes }

end Sys2Proof.Machine
end

