-- ==== Sys2Proof/Machine/Operands.lean ====
section
/-! DEFINITION. The operand forms: general registers, the literals, the instruction's own address,
and the effective address `I + k` (`10_state.md` R21, `20_memory.md` R55, `30_encoding.md` R73). -/

namespace Sys2Proof.Machine

/-- Reads `V[r]`; no register is hardwired (`10_state.md` R21). -/
def State.getV (s : State) (r : Reg) : Byte := s.v[r.val]

/-- Writes `V[r]` (`10_state.md` R21). -/
def State.setV (s : State) (r : Reg) (b : Byte) : State := { s with v := s.v.set r.val b }

/-- `A`, the address the executing instruction was fetched from: `PC == A + 2` throughout the body
(`30_encoding.md` R83). -/
def State.instrAddr (s : State) : Nat := (s.pc - 2).toNat

/-- The effective address `I + k`, unbounded: neither wrapped nor masked (`20_memory.md` R55). -/
def State.effAddr (s : State) (k : Nat) : Nat := s.i.toNat + k

/-- The registers `V[0]` to `V[x]`, inclusive of x, in ascending order (`42_index_memory.md`
R164). -/
def State.regsUpTo (s : State) (x : Reg) : List Byte := s.v.toList.take (x.val + 1)

/-- The decimal digits of a byte, hundreds, tens, units (`42_index_memory.md` R163). -/
def bcdDigits (b : Byte) : List Byte :=
  [BitVec.ofNat 8 (b.toNat / 100), BitVec.ofNat 8 (b.toNat / 10 % 10), BitVec.ofNat 8 (b.toNat % 10)]

end Sys2Proof.Machine
end

