-- ==== Sys2Proof/Machine/Flags.lean ====
section
/-! DEFINITION. The flag computations, each from the operand values before any write
(`10_state.md` R23, `41_alu.md` R130, R143), and the write of a result with its flag. -/

namespace Sys2Proof.Machine

/-- A flag as the value VF takes, 1 or 0. -/
def flagByte (f : Bool) : Byte := if f then 1 else 0

/-- The carry of ADD: the unclamped sum exceeds 255 (`41_alu.md` R137, R143). -/
def addCarry (a b : Byte) : Bool := decide (255 < a.toNat + b.toNat)

/-- "No borrow": the minuend is greater than or equal to the subtrahend (`41_alu.md` R138, R140). -/
def noBorrow (minuend subtrahend : Byte) : Bool := decide (subtrahend.toNat ≤ minuend.toNat)

/-- The bit shifted out to the right, the least significant (`41_alu.md` R139). -/
def shiftedOutRight (a : Byte) : Bool := a.getLsbD 0

/-- The bit shifted out to the left, the most significant (`41_alu.md` R141). -/
def shiftedOutLeft (a : Byte) : Bool := a.getLsbD 7

/-- Writes the result to `V[x]` and then the flag to VF, so that VF holds the flag when `x` is
0xF (`41_alu.md` R130; C2, log 17). -/
def State.setVWithFlag (s : State) (x : Reg) (result : Byte) (flag : Bool) : State :=
  (s.setV x result).setV VF (flagByte flag)

end Sys2Proof.Machine
end

