-- ==== Sys2Proof/Machine/Ops.lean ====
section
/-! DEFINITION. The operations the meanings share: raising an error, the checked range of memory
accesses, the second advance of a skip, the return stack. The core has no traps
(`60_exceptions.md` R230): its one exception mechanism is `raise`, and there is no return from it
(R237). -/

namespace Sys2Proof.Machine

/-- `raise E(info)`: the command ends at once with that status and info; the state it leaves is the
one it had reached, the writes made before the raise standing (`60_exceptions.md` R231; log 5). -/
def raise (e : Nat → State → Fault) (info : Nat) (s : State) : Outcome := .fault (e info s)

/-- `PC <- (PC + 2) mod 2^16` (`30_encoding.md` R83, `40_flow.md` R103). -/
def State.advance (s : State) : State := { s with pc := s.pc + 2 }

/-- A skip is a second advance when its condition holds (`40_flow.md` R103). -/
def State.skipIf (s : State) (c : Bool) : State := if c then s.advance else s

/-- The state with the program counter assigned (`00_scope.md` R9). -/
def State.jumpTo (s : State) (target : Word) : State := { s with pc := target }

/-! ## The return stack (`10_state.md` R27) -/

/-- Pushes on the return stack; none when it is full (`40_flow.md` R102). -/
def State.push (s : State) (w : Word) : Option State :=
  if h : s.sp.val < 16 then
    some { s with stack := s.stack.set s.sp.val w, sp := ⟨s.sp.val + 1, by omega⟩ }
  else none

/-- Pops the return stack, with the state after it; none when it is empty. The popped slot keeps its
value (`40_flow.md` R100; D12, log 14). -/
def State.pop (s : State) : Option (Word × State) :=
  if h : 0 < s.sp.val then
    have hlt : s.sp.val - 1 < 16 := by have := s.sp.isLt; omega
    some (s.stack[s.sp.val - 1], { s with sp := ⟨s.sp.val - 1, by omega⟩ })
  else none

/-! ## Checked memory accesses (`20_memory.md` R56 to R58) -/

/-- The check `MemRead` makes at one address (`20_memory.md` R56; D5, log 10). -/
def readError (a : Nat) : Option (Nat → State → Fault) :=
  if 0xFFF < a then some .memoryOutOfRange else none

/-- The checks `MemWrite` makes at one address, out of range before protection
(`20_memory.md` R57, `60_exceptions.md` R235; D5, D6, log 9 and 10). -/
def writeError (cfg : Config) (a : Nat) : Option (Nat → State → Fault) :=
  if 0xFFF < a then some .memoryOutOfRange
  else if a < programStart then
    match cfg.protectLow with
    | true => some .protectedWrite
    | false => none
  else none

/-- The first error, with its address, that a check raises at `base`, `base + 1`, ...,
`base + count - 1`, tried in ascending order (`20_memory.md` R58; D8, log 10). -/
def firstError (check : Nat → Option (Nat → State → Fault)) (base count : Nat) :
    Option ((Nat → State → Fault) × Nat) :=
  match count with
  | 0 => none
  | n + 1 =>
    match firstError check base n with
    | some e => some e
    | none =>
      match check (base + n) with
      | some e => some (e, base + n)
      | none => none

/-- All-or-nothing: the checks of every address first; the instruction's writes, which give `done`,
only when none fails (`20_memory.md` R58). -/
def guarded (check : Nat → Option (Nat → State → Fault)) (base count : Nat) (s : State)
    (done : State) : Outcome :=
  match firstError check base count with
  | some (e, a) => raise e a s
  | none => .next done

/-- Loads `V[k] <- mem[I + k]` for `k` below `count`, in ascending order (`42_index_memory.md`
R165). -/
def State.loadV (s : State) (count : Nat) : State :=
  match count with
  | 0 => s
  | k + 1 =>
    let t := s.loadV k
    { t with v := t.v.setIfInBounds k (s.peek (s.effAddr k)) }

end Sys2Proof.Machine
end

