-- ==== Sys2Proof/Machine/Alu.lean ====
section
/-! DEFINITION. Register loads and the 8-bit ALU (`41_alu.md`): unsigned, wrapping modulo 256
(R143). No instruction here raises an error. -/

namespace Sys2Proof.Machine

/-- LD Vx, nn (`41_alu.md` R131). -/
def execLdImm (x : Reg) (nn : Byte) (s : State) : Outcome := .next (s.setV x nn)

/-- ADD Vx, nn: no flag (`41_alu.md` R132). -/
def execAddImm (x : Reg) (nn : Byte) (s : State) : Outcome := .next (s.setV x (s.getV x + nn))

/-- LD Vx, Vy (`41_alu.md` R133). -/
def execLdReg (x y : Reg) (s : State) : Outcome := .next (s.setV x (s.getV y))

/-- OR Vx, Vy: VF is not reset (`41_alu.md` R134). -/
def execOrReg (x y : Reg) (s : State) : Outcome := .next (s.setV x (s.getV x ||| s.getV y))

/-- AND Vx, Vy: VF is not reset (`41_alu.md` R135). -/
def execAndReg (x y : Reg) (s : State) : Outcome := .next (s.setV x (s.getV x &&& s.getV y))

/-- XOR Vx, Vy: VF is not reset (`41_alu.md` R136). -/
def execXorReg (x y : Reg) (s : State) : Outcome := .next (s.setV x (s.getV x ^^^ s.getV y))

/-- ADD Vx, Vy, VF the carry (`41_alu.md` R137). -/
def execAddReg (x y : Reg) (s : State) : Outcome :=
  .next (s.setVWithFlag x (s.getV x + s.getV y) (addCarry (s.getV x) (s.getV y)))

/-- SUB Vx, Vy, VF "no borrow" (`41_alu.md` R138). -/
def execSubReg (x y : Reg) (s : State) : Outcome :=
  .next (s.setVWithFlag x (s.getV x - s.getV y) (noBorrow (s.getV x) (s.getV y)))

/-- SHR Vx: the source is Vx, never Vy (`41_alu.md` R139). -/
def execShr (x : Reg) (s : State) : Outcome :=
  .next (s.setVWithFlag x (s.getV x >>> 1) (shiftedOutRight (s.getV x)))

/-- SUBN Vx, Vy: Vx := Vy - Vx, VF "no borrow" (`41_alu.md` R140). -/
def execSubn (x y : Reg) (s : State) : Outcome :=
  .next (s.setVWithFlag x (s.getV y - s.getV x) (noBorrow (s.getV y) (s.getV x)))

/-- SHL Vx: the source is Vx, never Vy (`41_alu.md` R141). -/
def execShl (x : Reg) (s : State) : Outcome :=
  .next (s.setVWithFlag x (s.getV x <<< 1) (shiftedOutLeft (s.getV x)))

/-- The effect of RND on a random byte `rand8` (`41_alu.md` R142). -/
def State.randomAnd (s : State) (x : Reg) (nn rand8 : Byte) : State :=
  s.setV x (rand8 &&& nn)

/-- RND Vx, nn, with a fresh random byte for every RND executed, a free value (`41_alu.md` R142;
D14, log 4). -/
def execRnd (x : Reg) (nn : Byte) (s : State) : Outcome :=
  .next { s.randomAnd x nn (Config.rand8 s.draws) with draws := s.draws + 1 }

end Sys2Proof.Machine
end

