-- ==== Sys2Proof/Machine/Display.lean ====
section
/-! DEFINITION. The frame buffer instructions (`43_display.md`). -/

namespace Sys2Proof.Machine

/-- `disp[y][x]` (`10_state.md` R30). -/
def Screen.pixel (d : Screen) (px : Fin 64) (py : Fin 32) : Bool := d[py.val][px.val]

/-- A row with the pixel in one column toggled. -/
def toggleColumn (row : Vector Bool 64) (px : Fin 64) : Vector Bool 64 :=
  ⟨⟨row.toList.modify px.val (!·)⟩, by simp⟩

/-- The screen with one pixel toggled, `disp[y][x] <- disp[y][x] XOR 1` (`43_display.md` R191). -/
def Screen.toggle (d : Screen) (px : Fin 64) (py : Fin 32) : Screen :=
  ⟨⟨d.toList.modify py.val (toggleColumn · px)⟩, by simp⟩

/-- The blank screen (`43_display.md` R190). -/
def Screen.blank : Screen := Vector.replicate 32 (Vector.replicate 64 false)

/-- Draws one bit of a sprite at column `c` of row `r`, with the collision so far: a set bit toggles
its pixel and a 1 to 0 transition sets the collision; coordinates wrap on both axes
(`43_display.md` R191). -/
def drawBit (x0 y0 r c : Nat) (bit : Bool) (d : Screen × Bool) : Screen × Bool :=
  match d with
  | (disp, collision) =>
    match bit with
    | false => (disp, collision)
    | true =>
      let px := Fin.ofNat 64 (x0 + c)
      let py := Fin.ofNat 32 (y0 + r)
      (disp.toggle px py, collision || disp.pixel px py)

/-- Draws the first `count` columns of a row: column `c` is bit `7 - c` of its byte, most significant
first (`43_display.md` R191). -/
def drawRow (x0 y0 r : Nat) (b : Byte) (count : Nat) (d : Screen × Bool) : Screen × Bool :=
  match count with
  | 0 => d
  | c + 1 => drawBit x0 y0 r c (b.getLsbD (7 - c)) (drawRow x0 y0 r b c d)

/-- Draws the first `count` rows of a sprite whose row `r` is the byte `rows r` (`43_display.md`
R191). -/
def drawRows (x0 y0 : Nat) (rows : Nat → Byte) (count : Nat) (d : Screen × Bool) : Screen × Bool :=
  match count with
  | 0 => d
  | r + 1 => drawRow x0 y0 r (rows r) 8 (drawRows x0 y0 rows r d)

/-- CLS: every pixel off, redraw pending; VF is not written (`43_display.md` R190). -/
def execCls (s : State) : Outcome := .next { s with disp := Screen.blank, redrawPending := true }

/-- The effect of DRW once its reads are checked: the sprite drawn, VF the collision, written last,
redraw pending unconditionally (`43_display.md` R191; C4, log 16). -/
def State.drawn (s : State) (x y : Reg) (n : Nibble) : State :=
  match drawRows (s.getV x).toNat (s.getV y).toNat (fun r => s.peek (s.effAddr r)) n.toNat
      (s.disp, false) with
  | (disp, collision) =>
    ({ s with disp := disp, redrawPending := true } : State).setV VF (flagByte collision)

/-- DRW Vx, Vy, n (`43_display.md` R191). -/
def execDrw (x y : Reg) (n : Nibble) (s : State) : Outcome :=
  guarded readError (s.effAddr 0) n.toNat s (s.drawn x y n)

end Sys2Proof.Machine
end

