-- ==== Sys2Proof/Machine/Flow.lean ====
section
/-! DEFINITION. Control transfer (`40_flow.md`). On entry `PC == A + 2` (`30_encoding.md` R83). -/

namespace Sys2Proof.Machine

/-- RET (`40_flow.md` R100). -/
def execRet (s : State) : Outcome :=
  match s.pop with
  | some (w, t) => .next (t.jumpTo w)
  | none => raise .stackUnderflow s.instrAddr s

/-- JP nnn (`40_flow.md` R101). -/
def execJp (nnn : Addr12) (s : State) : Outcome := .next (s.jumpTo (zext16 nnn))

/-- CALL nnn: pushes the address after itself (`40_flow.md` R102). -/
def execCall (nnn : Addr12) (s : State) : Outcome :=
  match s.push s.pc with
  | some t => .next (t.jumpTo (zext16 nnn))
  | none => raise .stackOverflow s.instrAddr s

/-- SE Vx, nn (`40_flow.md` R104). -/
def execSeImm (x : Reg) (nn : Byte) (s : State) : Outcome := .next (s.skipIf (s.getV x == nn))

/-- SNE Vx, nn (`40_flow.md` R105). -/
def execSneImm (x : Reg) (nn : Byte) (s : State) : Outcome := .next (s.skipIf (s.getV x != nn))

/-- SE Vx, Vy (`40_flow.md` R106). -/
def execSeReg (x y : Reg) (s : State) : Outcome := .next (s.skipIf (s.getV x == s.getV y))

/-- SNE Vx, Vy (`40_flow.md` R107). -/
def execSneReg (x y : Reg) (s : State) : Outcome := .next (s.skipIf (s.getV x != s.getV y))

/-- JP V0, nnn: the offset register is always V0 (`40_flow.md` R108). -/
def execJpV0 (nnn : Addr12) (s : State) : Outcome :=
  .next (s.jumpTo (zext16 nnn + zext16 (s.getV 0)))

end Sys2Proof.Machine
end

