-- ==== Sys2Proof/Machine/IndexMemory.lean ====
section
/-! DEFINITION. The index register and the memory transfers (`42_index_memory.md`). -/

namespace Sys2Proof.Machine

/-- The state with `I` assigned. -/
def State.setI (s : State) (w : Word) : State := { s with i := w }

/-- LD I, nnn (`42_index_memory.md` R160). -/
def execLdI (nnn : Addr12) (s : State) : Outcome := .next (s.setI (zext16 nnn))

/-- ADD I, Vx: 16-bit, no flag, not masked (`42_index_memory.md` R161). -/
def execAddI (x : Reg) (s : State) : Outcome := .next (s.setI (s.i + zext16 (s.getV x)))

/-- LD F, Vx: the whole of Vx times 5 (`42_index_memory.md` R162). -/
def execLdF (x : Reg) (s : State) : Outcome :=
  .next (s.setI (BitVec.ofNat 16 ((s.getV x).toNat * 5)))

/-- LD B, Vx: the three digits at I, I+1, I+2 (`42_index_memory.md` R163). -/
def execLdB (x : Reg) (s : State) : Outcome :=
  guarded (writeError s.cfg) (s.effAddr 0) 3 s (s.pokeRun (s.effAddr 0) (bcdDigits (s.getV x)))

/-- LD [I], Vx: V0 to Vx at I onward; I is not written (`42_index_memory.md` R164; D11, log 14). -/
def execStoreRegs (x : Reg) (s : State) : Outcome :=
  guarded (writeError s.cfg) (s.effAddr 0) (x.val + 1) s
    (s.pokeRun (s.effAddr 0) (s.regsUpTo x))

/-- LD Vx, [I]: V0 to Vx from I onward; I is not written (`42_index_memory.md` R165; D11,
log 14). -/
def execLoadRegs (x : Reg) (s : State) : Outcome :=
  guarded readError (s.effAddr 0) (x.val + 1) s (s.loadV (x.val + 1))

end Sys2Proof.Machine
end

