-- ==== Sys2Proof/Machine/KeysTimers.lean ====
section
/-! DEFINITION. The key and timer instructions (`44_timers_keys.md`). -/

namespace Sys2Proof.Machine

/-- The level of the key whose index a register holds; none above 15 (`44_timers_keys.md` R210;
D10, log 13). -/
def State.keyLevel (s : State) (k : Byte) : Option Bool :=
  if h : k.toNat < 16 then some s.keys[k.toNat] else none

/-- SKP Vx (`44_timers_keys.md` R210). -/
def execSkp (x : Reg) (s : State) : Outcome :=
  match s.keyLevel (s.getV x) with
  | some pressed => .next (s.skipIf pressed)
  | none => raise .keyIndexOutOfRange (s.getV x).toNat s

/-- SKNP Vx (`44_timers_keys.md` R211). -/
def execSknp (x : Reg) (s : State) : Outcome :=
  match s.keyLevel (s.getV x) with
  | some pressed => .next (s.skipIf (!pressed))
  | none => raise .keyIndexOutOfRange (s.getV x).toNat s

/-- LD Vx, DT (`44_timers_keys.md` R212). -/
def execLdVxDT (x : Reg) (s : State) : Outcome := .next (s.setV x s.dt)

/-- LD Vx, K: starts the key wait; Vx is written by the SETKEY that resolves it
(`44_timers_keys.md` R213). -/
def execLdVxK (x : Reg) (s : State) : Outcome := .next { s with awaitingKey := true, keyTarget := x }

/-- LD DT, Vx (`44_timers_keys.md` R214). -/
def execLdDT (x : Reg) (s : State) : Outcome := .next { s with dt := s.getV x }

/-- LD ST, Vx (`44_timers_keys.md` R215). -/
def execLdST (x : Reg) (s : State) : Outcome := .next { s with st := s.getV x }

end Sys2Proof.Machine
end

