-- ==== Sys2Proof/Syntax.lean ====
section
/-! DEFINITION. The 34 instructions (`30_encoding.md` R75), one constructor per row of
spec/opcode_table.json, in the table's order. -/

namespace Sys2Proof

/-- An instruction with its decoded fields (`30_encoding.md` R72, R75, R85).

`x` and `y` are register selectors, `n`, `nn`, `nnn` literals. An argument named `unexamined`
holds bits of the word that neither select the instruction nor change what it does; they are kept
so that an instruction stands for exactly one word (`30_encoding.md` R76, R77, log 12). The `y` of
SHR and SHL is "decoded but not used" (`41_alu.md` R139, R141). -/
inductive Instr where
  /-- 00E0, clear screen (`43_display.md` R190). -/
  | cls (unexamined : Nibble)
  /-- 00EE, return (`40_flow.md` R100). -/
  | ret (unexamined : Nibble)
  /-- 1NNN, jump (`40_flow.md` R101). -/
  | jp (nnn : Addr12)
  /-- 2NNN, call (`40_flow.md` R102). -/
  | call (nnn : Addr12)
  /-- 3XNN, skip if Vx == nn (`40_flow.md` R104). -/
  | seImm (x : Reg) (nn : Byte)
  /-- 4XNN, skip if Vx != nn (`40_flow.md` R105). -/
  | sneImm (x : Reg) (nn : Byte)
  /-- 5XY0, skip if Vx == Vy (`40_flow.md` R106). -/
  | seReg (x y : Reg) (unexamined : Nibble)
  /-- 6XNN, Vx := nn (`41_alu.md` R131). -/
  | ldImm (x : Reg) (nn : Byte)
  /-- 7XNN, add nn to Vx (`41_alu.md` R132). -/
  | addImm (x : Reg) (nn : Byte)
  /-- 8XY0, Vx := Vy (`41_alu.md` R133). -/
  | ldReg (x y : Reg)
  /-- 8XY1, bitwise OR (`41_alu.md` R134). -/
  | orReg (x y : Reg)
  /-- 8XY2, bitwise AND (`41_alu.md` R135). -/
  | andReg (x y : Reg)
  /-- 8XY3, bitwise XOR (`41_alu.md` R136). -/
  | xorReg (x y : Reg)
  /-- 8XY4, add Vy to Vx, VF the carry (`41_alu.md` R137). -/
  | addReg (x y : Reg)
  /-- 8XY5, subtract Vy from Vx, VF "no borrow" (`41_alu.md` R138). -/
  | subReg (x y : Reg)
  /-- 8XY6, shift Vx right by 1, VF the bit shifted out (`41_alu.md` R139). -/
  | shr (x y : Reg)
  /-- 8XY7, Vx := Vy - Vx, VF "no borrow" (`41_alu.md` R140). -/
  | subn (x y : Reg)
  /-- 8XYE, shift Vx left by 1, VF the bit shifted out (`41_alu.md` R141). -/
  | shl (x y : Reg)
  /-- 9XY0, skip if Vx != Vy (`40_flow.md` R107). -/
  | sneReg (x y : Reg) (unexamined : Nibble)
  /-- ANNN, I := nnn (`42_index_memory.md` R160). -/
  | ldI (nnn : Addr12)
  /-- BNNN, jump to nnn + V0 (`40_flow.md` R108). -/
  | jpV0 (nnn : Addr12)
  /-- CXNN, random AND nn (`41_alu.md` R142). -/
  | rnd (x : Reg) (nn : Byte)
  /-- DXYN, draw a sprite of n rows (`43_display.md` R191). -/
  | drw (x y : Reg) (n : Nibble)
  /-- EX9E, skip if key Vx pressed (`44_timers_keys.md` R210). -/
  | skp (x : Reg)
  /-- EXA1, skip if key Vx not pressed (`44_timers_keys.md` R211). -/
  | sknp (x : Reg)
  /-- FX07, Vx := DT (`44_timers_keys.md` R212). -/
  | ldVxDT (x : Reg)
  /-- FX0A, await a key into Vx (`44_timers_keys.md` R213). -/
  | ldVxK (x : Reg)
  /-- FX15, DT := Vx (`44_timers_keys.md` R214). -/
  | ldDT (x : Reg)
  /-- FX18, ST := Vx (`44_timers_keys.md` R215). -/
  | ldST (x : Reg)
  /-- FX1E, I += Vx (`42_index_memory.md` R161). -/
  | addI (x : Reg)
  /-- FX29, I := glyph address of Vx (`42_index_memory.md` R162). -/
  | ldF (x : Reg)
  /-- FX33, store BCD of Vx at I (`42_index_memory.md` R163). -/
  | ldB (x : Reg)
  /-- FX55, store V0..Vx at I (`42_index_memory.md` R164). -/
  | storeRegs (x : Reg)
  /-- FX65, load V0..Vx from I (`42_index_memory.md` R165). -/
  | loadRegs (x : Reg)
  deriving DecidableEq, Repr

/-- Why the decoder rejects what it is given (`30_encoding.md` R79, R85). -/
inductive DecodeError where
  /-- The "illegal" verdict on the word `w` (`30_encoding.md` R79). -/
  | unknownOpcode (w : Word)
  /-- Fewer than the two bytes of an instruction word were given: the byte-level decoder's own
  verdict, never met by STEP, which always fetches two bytes (`30_encoding.md` R81; log 22). -/
  | truncated
  deriving DecidableEq, Repr

/-- What decoding answers: an instruction with the rest of the bytes, or a rejection by name. -/
inductive Decoded (α : Type) where
  | accepted (a : α)
  | rejected (why : DecodeError)
  deriving DecidableEq, Repr

end Sys2Proof
end

