-- ==== Sys2Proof/WellFormed.lean ====
section
/-! DEFINITION. When an instruction is well formed. The ranges of the fields are their types
(`Reg`, `Nibble`, `Byte`, `Addr12`), so no check on them is left to make; what remains is the
check that `STRICT_DECODE` adds (`30_encoding.md` R76, R77, R79). -/

namespace Sys2Proof

/-- Under `STRICT_DECODE` the unexamined bits must be zero: `x` of group 0x0 (`30_encoding.md`
R76), `n` of groups 0x5 and 0x9 (R77). Without it every instruction is well formed. -/
def WellFormed (strict : Bool) (i : Instr) : Bool :=
  match i with
  | .cls u => !strict || u == 0
  | .ret u => !strict || u == 0
  | .seReg _ _ u => !strict || u == 0
  | .sneReg _ _ u => !strict || u == 0
  | .jp _ | .call _ | .seImm _ _ | .sneImm _ _ | .ldImm _ _ | .addImm _ _ | .ldReg _ _
  | .orReg _ _ | .andReg _ _ | .xorReg _ _ | .addReg _ _ | .subReg _ _ | .shr _ _ | .subn _ _
  | .shl _ _ | .ldI _ | .jpV0 _ | .rnd _ _ | .drw _ _ _ | .skp _ | .sknp _ | .ldVxDT _
  | .ldVxK _ | .ldDT _ | .ldST _ | .addI _ | .ldF _ | .ldB _ | .storeRegs _ | .loadRegs _ => true

end Sys2Proof
end

