-- ==== Sys2Proof/Decode.lean ====
section
/-! DEFINITION. The decoder, total on every word and on every byte list, and the encoder, both
from the opcode map of `30_encoding.md` R70 to R79 (the bit patterns are the spec's general
knowledge, G1 to G4; PRESUMED, log 1; unsafe). -/

namespace Sys2Proof

/-! ## The fields of a word (`30_encoding.md` R72) -/

/-- `g = w[15:12]`, the primary group. -/
def fieldG (w : Word) : Nibble := w.extractLsb' 12 4
/-- `x = w[11:8]` as a register selector. -/
def fieldX (w : Word) : Reg := (w.extractLsb' 8 4).toFin
/-- `y = w[7:4]` as a register selector. -/
def fieldY (w : Word) : Reg := (w.extractLsb' 4 4).toFin
/-- `n = w[3:0]`. -/
def fieldN (w : Word) : Nibble := w.extractLsb' 0 4
/-- `nn = w[7:0]`. -/
def fieldNN (w : Word) : Byte := w.extractLsb' 0 8
/-- `nnn = w[11:0]`. -/
def fieldNNN (w : Word) : Addr12 := w.extractLsb' 0 12

/-! ## The three format pictures (`30_encoding.md` R72) -/

/-- A register selector as the 4 bits of a word's field. -/
def regBits (r : Reg) : Nibble := BitVec.ofFin r

/-- The register-register form `g x y n`. -/
def wordRegReg (g : Nibble) (x y : Reg) (n : Nibble) : Word :=
  (g ++ regBits x) ++ (regBits y ++ n)

/-- The register-literal form `g x nn`. -/
def wordRegLit (g : Nibble) (x : Reg) (nn : Byte) : Word := (g ++ regBits x) ++ nn

/-- The address form `g nnn`. -/
def wordAddr (g : Nibble) (nnn : Addr12) : Word := g ++ nnn

/-- `w = mem[A] ++ mem[A+1]`: the byte at the lower address is the most significant
(`30_encoding.md` R71, `20_memory.md` R54). -/
def wordOfBytes (hi lo : Byte) : Word := hi ++ lo

/-- The byte of a word that lies at the lower address. -/
def highByte (w : Word) : Byte := w.extractLsb' 8 8
/-- The byte of a word that lies at the higher address. -/
def lowByte (w : Word) : Byte := w.extractLsb' 0 8

/-! ## Decoding (`30_encoding.md` R74 to R79) -/

/-- An instruction whose unexamined bits are `u`: accepted, but under `STRICT_DECODE` only with
`u` zero (`30_encoding.md` R76, R77). -/
def acceptUnexamined (strict : Bool) (u : Nibble) (i : Instr) (w : Word) : Decoded Instr :=
  if u = 0 then .accepted i
  else match strict with
    | true => .rejected (.unknownOpcode w)
    | false => .accepted i

/-- Group 0x0 dispatches on `nn` (`30_encoding.md` R76). -/
def decodeGroup0 (strict : Bool) (w : Word) : Decoded Instr :=
  match fieldNN w with
  | 0xE0#8 => acceptUnexamined strict (regBits (fieldX w)) (.cls (regBits (fieldX w))) w
  | 0xEE#8 => acceptUnexamined strict (regBits (fieldX w)) (.ret (regBits (fieldX w))) w
  | _ => .rejected (.unknownOpcode w)

/-- Group 0x8 dispatches on `n` (`30_encoding.md` R78). -/
def decodeGroup8 (w : Word) : Decoded Instr :=
  match fieldN w with
  | 0x0#4 => .accepted (.ldReg (fieldX w) (fieldY w))
  | 0x1#4 => .accepted (.orReg (fieldX w) (fieldY w))
  | 0x2#4 => .accepted (.andReg (fieldX w) (fieldY w))
  | 0x3#4 => .accepted (.xorReg (fieldX w) (fieldY w))
  | 0x4#4 => .accepted (.addReg (fieldX w) (fieldY w))
  | 0x5#4 => .accepted (.subReg (fieldX w) (fieldY w))
  | 0x6#4 => .accepted (.shr (fieldX w) (fieldY w))
  | 0x7#4 => .accepted (.subn (fieldX w) (fieldY w))
  | 0xE#4 => .accepted (.shl (fieldX w) (fieldY w))
  | _ => .rejected (.unknownOpcode w)

/-- Group 0xE dispatches on `nn` (`30_encoding.md` R78). -/
def decodeGroupE (w : Word) : Decoded Instr :=
  match fieldNN w with
  | 0x9E#8 => .accepted (.skp (fieldX w))
  | 0xA1#8 => .accepted (.sknp (fieldX w))
  | _ => .rejected (.unknownOpcode w)

/-- Group 0xF dispatches on `nn` (`30_encoding.md` R78). -/
def decodeGroupF (w : Word) : Decoded Instr :=
  match fieldNN w with
  | 0x07#8 => .accepted (.ldVxDT (fieldX w))
  | 0x0A#8 => .accepted (.ldVxK (fieldX w))
  | 0x15#8 => .accepted (.ldDT (fieldX w))
  | 0x18#8 => .accepted (.ldST (fieldX w))
  | 0x1E#8 => .accepted (.addI (fieldX w))
  | 0x29#8 => .accepted (.ldF (fieldX w))
  | 0x33#8 => .accepted (.ldB (fieldX w))
  | 0x55#8 => .accepted (.storeRegs (fieldX w))
  | 0x65#8 => .accepted (.loadRegs (fieldX w))
  | _ => .rejected (.unknownOpcode w)

/-- Decoding dispatches on the primary group (`30_encoding.md` R74, R75); it depends on nothing but
the word and `STRICT_DECODE` (R85). -/
def decodeWord (strict : Bool) (w : Word) : Decoded Instr :=
  match fieldG w with
  | 0x0#4 => decodeGroup0 strict w
  | 0x1#4 => .accepted (.jp (fieldNNN w))
  | 0x2#4 => .accepted (.call (fieldNNN w))
  | 0x3#4 => .accepted (.seImm (fieldX w) (fieldNN w))
  | 0x4#4 => .accepted (.sneImm (fieldX w) (fieldNN w))
  | 0x5#4 => acceptUnexamined strict (fieldN w) (.seReg (fieldX w) (fieldY w) (fieldN w)) w
  | 0x6#4 => .accepted (.ldImm (fieldX w) (fieldNN w))
  | 0x7#4 => .accepted (.addImm (fieldX w) (fieldNN w))
  | 0x8#4 => decodeGroup8 w
  | 0x9#4 => acceptUnexamined strict (fieldN w) (.sneReg (fieldX w) (fieldY w) (fieldN w)) w
  | 0xA#4 => .accepted (.ldI (fieldNNN w))
  | 0xB#4 => .accepted (.jpV0 (fieldNNN w))
  | 0xC#4 => .accepted (.rnd (fieldX w) (fieldNN w))
  | 0xD#4 => .accepted (.drw (fieldX w) (fieldY w) (fieldN w))
  | 0xE#4 => decodeGroupE w
  | _ => decodeGroupF w

/-- Decoding from bytes as they lie in memory, lowest address first; total on any bytes. -/
def decodeBytes (strict : Bool) (bytes : List Byte) : Decoded (Instr × List Byte) :=
  match bytes with
  | hi :: lo :: rest =>
    match decodeWord strict (wordOfBytes hi lo) with
    | .accepted i => .accepted (i, rest)
    | .rejected e => .rejected e
  | _ => .rejected .truncated

/-! ## Encoding (the opcode map of `30_encoding.md` R75, read the other way) -/

/-- The word of an instruction. -/
def encode (i : Instr) : Word :=
  match i with
  | .cls u => wordRegLit 0x0 u.toFin 0xE0
  | .ret u => wordRegLit 0x0 u.toFin 0xEE
  | .jp nnn => wordAddr 0x1 nnn
  | .call nnn => wordAddr 0x2 nnn
  | .seImm x nn => wordRegLit 0x3 x nn
  | .sneImm x nn => wordRegLit 0x4 x nn
  | .seReg x y u => wordRegReg 0x5 x y u
  | .ldImm x nn => wordRegLit 0x6 x nn
  | .addImm x nn => wordRegLit 0x7 x nn
  | .ldReg x y => wordRegReg 0x8 x y 0x0
  | .orReg x y => wordRegReg 0x8 x y 0x1
  | .andReg x y => wordRegReg 0x8 x y 0x2
  | .xorReg x y => wordRegReg 0x8 x y 0x3
  | .addReg x y => wordRegReg 0x8 x y 0x4
  | .subReg x y => wordRegReg 0x8 x y 0x5
  | .shr x y => wordRegReg 0x8 x y 0x6
  | .subn x y => wordRegReg 0x8 x y 0x7
  | .shl x y => wordRegReg 0x8 x y 0xE
  | .sneReg x y u => wordRegReg 0x9 x y u
  | .ldI nnn => wordAddr 0xA nnn
  | .jpV0 nnn => wordAddr 0xB nnn
  | .rnd x nn => wordRegLit 0xC x nn
  | .drw x y n => wordRegReg 0xD x y n
  | .skp x => wordRegLit 0xE x 0x9E
  | .sknp x => wordRegLit 0xE x 0xA1
  | .ldVxDT x => wordRegLit 0xF x 0x07
  | .ldVxK x => wordRegLit 0xF x 0x0A
  | .ldDT x => wordRegLit 0xF x 0x15
  | .ldST x => wordRegLit 0xF x 0x18
  | .addI x => wordRegLit 0xF x 0x1E
  | .ldF x => wordRegLit 0xF x 0x29
  | .ldB x => wordRegLit 0xF x 0x33
  | .storeRegs x => wordRegLit 0xF x 0x55
  | .loadRegs x => wordRegLit 0xF x 0x65

/-- The bytes of an instruction in memory order (`20_memory.md` R54). -/
def encodeBytes (i : Instr) : List Byte := [highByte (encode i), lowByte (encode i)]

/-! ## The opcode table's numbering -/

/-- The word that the low `nbits` bits of `w` give: bit 0 is the least significant bit of the first
word. An instruction is one word, so bits above 15 belong to no instruction (`30_encoding.md` R70). -/
def tableWord (nbits w : Nat) : Word := BitVec.ofNat 16 (w % 2 ^ nbits)

/-- The instruction the decoder reads from the table's bits, at the default `STRICT_DECODE = false`
(log 22). -/
def decodeTableWord (nbits w : Nat) : Option Instr :=
  match decodeBytes false [highByte (tableWord nbits w), lowByte (tableWord nbits w)] with
  | .accepted (i, _) => some i
  | .rejected _ => none

end Sys2Proof
end

