-- ==== Sys2Proof/Machine/Fetch.lean ====
section
/-! DEFINITION. The instruction fetch and its checks (`30_encoding.md` R81, R82; D7, D18, log 11),
and the placing of a word where the next STEP fetches it (log 18). -/

namespace Sys2Proof.Machine

/-- The first check of the program counter that fails, in the order odd, below the program start,
beyond memory (`30_encoding.md` R82, `60_exceptions.md` R235). -/
def fetchError (pc : Word) : Option (Nat → State → Fault) :=
  if pc.getLsbD 0 then some .fetchMisaligned
  else if pc.toNat < programStart then some .fetchBelowProgramStart
  else if 0xFFF < pc.toNat + 1 then some .memoryOutOfRange
  else none

/-- The two bytes at `pc`, in memory order. -/
def State.fetchBytes (s : State) (pc : Word) : List Byte :=
  [s.peek pc.toNat, s.peek (pc.toNat + 1)]

/-- `FetchWord(pc) = mem[pc] ++ mem[pc+1]` (`30_encoding.md` R71, R81; `20_memory.md` R54). -/
def State.fetchWord (s : State) (pc : Word) : Word :=
  wordOfBytes (s.peek pc.toNat) (s.peek (pc.toNat + 1))

/-- Stores a word at `pc` in memory byte order, as LOAD does, no check made (`20_memory.md` R67). -/
def State.placeWord (s : State) (pc : Word) (w : Word) : State :=
  s.pokeRun pc.toNat [highByte w, lowByte w]

/-- The state made ready to fetch: no key wait pending, and the program counter where it is if a
fetch there passes its checks, at the program start otherwise (log 18). -/
def State.readyToFetch (s : State) : State :=
  { s with
    awaitingKey := false
    pc := if (fetchError s.pc).isNone then s.pc else BitVec.ofNat 16 programStart }

end Sys2Proof.Machine
end

