-- ==== Sys2Proof/Machine/Cycle.lean ====
section
/-! DEFINITION. The instruction cycle, STEP (`30_encoding.md` R80 to R84). -/

namespace Sys2Proof.Machine

/-- STEP after the fetch: the program counter advances, the word is decoded, the instruction runs
(`30_encoding.md` R83, R84). The fetch gives a whole word, so the one rejection met is the illegal
word's. -/
def runWord (w : Word) (s : State) : Outcome :=
  match decodeWord s.cfg.strictDecode w with
  | .accepted i => exec i s.advance
  | .rejected _ => raise .unknownOpcode w.toNat s.advance

/-- STEP: nothing while a key is awaited; else the checks of the program counter, the fetch, and the
instruction (`30_encoding.md` R80, R82, R84). -/
def cycle (s : State) : Outcome :=
  match s.awaitingKey with
  | true => .next s
  | false =>
    match fetchError s.pc with
    | some e => raise e s.pc.toNat s
    | none => runWord (s.fetchWord s.pc) s

end Sys2Proof.Machine
end

