-- ==== Sys2Proof/Machine/Step.lean ====
section
/-! DEFINITION. One step of the machine, and how an instruction comes to stand where it is fetched. -/

namespace Sys2Proof.Machine

/-- One step is the command STEP (`30_encoding.md` R84). -/
def step (s : State) : Host.Outcome State Fault Refusal := cycle s

/-- The state with the table's word placed where `step` fetches its next instruction: what LOAD does
for a program's first word (`70_reset_and_hazards.md` R273, R275; log 18). -/
def State.withFetchWord (s : State) (nbits w : Nat) : State :=
  s.readyToFetch.placeWord s.readyToFetch.pc (tableWord nbits w)

end Sys2Proof.Machine
end

