-- ==== Sys2Proof/Machine/Commands.lean ====
section
/-! DEFINITION. The six commands of the driver (`60_exceptions.md` R252), the status and info each
returns (R232), and the core before its first RESET (`10_state.md` R39). STEP is `step`. -/

namespace Sys2Proof.Machine

/-- The commands (`60_exceptions.md` R252; D21, log 6). STEP's operand `rand8` is the free value of
`Config.rand8` (log 4). -/
inductive Command where
  | reset
  | load (bytes : List Byte)
  | step
  | tick
  /-- The index is any integer (`60_exceptions.md` R244; D26). -/
  | setKey (index : Int) (pressed : Bool)
  | clearRedraw
  deriving DecidableEq, Repr

/-- RESET: every state element to its reset value (`70_reset_and_hazards.md` R270). The parameters
are not state and stay; the random bytes go on from where they were (log 23). -/
def resetCommand (s : State) : State := State.resetWith s.cfg s.draws

/-- LOAD: the program's bytes at 0x200, at most 3584 of them; nothing else is written
(`70_reset_and_hazards.md` R273, R274). -/
def loadCommand (bytes : List Byte) (s : State) : Outcome :=
  if maxProgram < bytes.length then raise .oversizeProgram 0 s
  else .next (s.pokeRun programStart bytes)

/-- A timer counts down by one and saturates at 0 (`60_exceptions.md` R240). -/
def countDown (t : Byte) : Byte := if 0 < t.toNat then t - 1 else t

/-- TICK (`60_exceptions.md` R240). -/
def tickCommand (s : State) : State := { s with dt := countDown s.dt, st := countDown s.st }

/-- The second half of SETKEY: a press resolves a key wait (`60_exceptions.md` R245; D22, log 15). -/
def resolveKeyWait (index : Reg) (pressed : Bool) (s : State) : State :=
  if s.awaitingKey && pressed then
    { s.setV s.keyTarget (BitVec.ofNat 8 index.val) with awaitingKey := false }
  else s

/-- SETKEY: an index outside 0 to 15 is ignored (`60_exceptions.md` R238, R244). -/
def setKeyCommand (index : Int) (pressed : Bool) (s : State) : State :=
  if h : 0 ≤ index ∧ index ≤ 15 then
    have hlt : index.toNat < 16 := by omega
    resolveKeyWait ⟨index.toNat, hlt⟩ pressed { s with keys := s.keys.set index.toNat pressed }
  else s

/-- CLEAR_REDRAW (`60_exceptions.md` R255; D24, log 16). -/
def clearRedrawCommand (s : State) : State := { s with redrawPending := false }

/-- One command, atomic (`60_exceptions.md` R252, R253). -/
def runCommand (c : Command) (s : State) : Outcome :=
  match c with
  | .reset => .next (resetCommand s)
  | .load bytes => loadCommand bytes s
  | .step => step s
  | .tick => .next (tickCommand s)
  | .setKey index pressed => .next (setKeyCommand index pressed s)
  | .clearRedraw => .next (clearRedrawCommand s)

/-- A run of commands, ending at the first error (`60_exceptions.md` R236; D9, log 5). -/
def runCommands (cs : List Command) (s : State) : Outcome :=
  match cs with
  | [] => .next s
  | c :: rest =>
    match runCommand c s with
    | .next t => runCommands rest t
    | .fault f => .fault f
    | .refused r => .refused r

/-! ## Status, info and the state after an error (`60_exceptions.md` R232 to R234) -/

/-- The numeric code of an error (`60_exceptions.md` R232; D4). -/
def faultCode (f : Fault) : Nat :=
  match f with
  | .oversizeProgram _ _ => 1
  | .stackOverflow _ _ => 2
  | .stackUnderflow _ _ => 3
  | .unknownOpcode _ _ => 4
  | .memoryOutOfRange _ _ => 5
  | .protectedWrite _ _ => 6
  | .fetchMisaligned _ _ => 7
  | .fetchBelowProgramStart _ _ => 8
  | .keyIndexOutOfRange _ _ => 9

/-- The info value of an error. -/
def faultInfo (f : Fault) : Nat :=
  match f with
  | .oversizeProgram a _ | .stackOverflow a _ | .stackUnderflow a _ | .unknownOpcode a _
  | .memoryOutOfRange a _ | .protectedWrite a _ | .fetchMisaligned a _
  | .fetchBelowProgramStart a _ | .keyIndexOutOfRange a _ => a

/-- The state an error leaves (`60_exceptions.md` R231, R234). -/
def faultState (f : Fault) : State :=
  match f with
  | .oversizeProgram _ t | .stackOverflow _ t | .stackUnderflow _ t | .unknownOpcode _ t
  | .memoryOutOfRange _ t | .protectedWrite _ t | .fetchMisaligned _ t
  | .fetchBelowProgramStart _ t | .keyIndexOutOfRange _ t => t

/-- The result status and info of a command, 0 and 0 for `Ok` (`60_exceptions.md` R232); none where
the model gives no meaning. -/
def statusOf (o : Outcome) : Option (Nat × Nat) :=
  match o with
  | .next _ => some (0, 0)
  | .fault f => some (faultCode f, faultInfo f)
  | .refused _ => none

/-- The state a command leaves, after an error too: the core has no halted state and accepts every
command as before (`60_exceptions.md` R233); none where the model gives no meaning. -/
def stateAfter (o : Outcome) : Option State :=
  match o with
  | .next t => some t
  | .fault f => some (faultState f)
  | .refused _ => none

/-- The state a run of commands leaves when its driver goes on after every error
(`60_exceptions.md` R233); none where the model gives no meaning. -/
def runThrough (cs : List Command) (s : State) : Option State :=
  match cs with
  | [] => some s
  | c :: rest =>
    match stateAfter (runCommand c s) with
    | some t => runThrough rest t
    | none => none

/-- The tone output, a function of state (`60_exceptions.md` R256). -/
def toneOn (s : State) : Bool := s.st != 0

/-! ## The core before its first RESET (`10_state.md` R39, `70_reset_and_hazards.md` R272) -/

/-- A core from its construction on: its state is unspecified, so it has none, until the first
RESET. -/
inductive Device where
  | constructed (cfg : Config) (draws : Nat)
  | running (s : State)
  deriving DecidableEq, Repr

/-- One command to a core: before the first RESET only RESET has a meaning (`10_state.md` R39; D13,
log 7). -/
def Device.command (c : Command) (d : Device) : Host.Outcome Device Fault Refusal :=
  match d with
  | .constructed cfg draws =>
    match c with
    | .reset => .next (.running (State.resetWith cfg draws))
    | .load _ | .step | .tick | .setKey _ _ | .clearRedraw => .refused .beforeFirstReset
  | .running s =>
    match runCommand c s with
    | .next t => .next (.running t)
    | .fault f => .fault f
    | .refused r => .refused r

end Sys2Proof.Machine
end

