-- ==== Sys2Proof/Machine/Glyphs.lean ====
section
/-! DEFINITION. The glyph table's invariant, "written at reset and never reprogrammed by running
code", and the check of its premise (`20_memory.md` R53; D6, log 9). With `PROTECT_LOW_MEMORY` the core
enforces it; without, it is a premise on the program, which the checks here test, command by command
along a run. -/

namespace Sys2Proof.Machine

/-- The glyph table is the bytes 0x000 to 0x04F (`20_memory.md` R52). -/
def glyphBytes : Nat := 80

/-- Whether the bytes 0x000 to 0x04F hold the glyph table that RESET wrote. -/
def State.glyphsIntact (s : State) : Bool :=
  (List.range glyphBytes).all fun a => s.peek a == resetByte s.cfg a

/-- The first address an instruction stores to and how many bytes it stores, when it completes
(`42_index_memory.md` R163, R164); no byte for an instruction that stores none. -/
def storedRange (i : Instr) (s : State) : Nat × Nat :=
  match i with
  | .ldB _ => (s.effAddr 0, 3)
  | .storeRegs x => (s.effAddr 0, x.val + 1)
  | .cls _ | .ret _ | .jp _ | .call _ | .seImm _ _ | .sneImm _ _ | .seReg _ _ _ | .ldImm _ _
  | .addImm _ _ | .ldReg _ _ | .orReg _ _ | .andReg _ _ | .xorReg _ _ | .addReg _ _ | .subReg _ _
  | .shr _ _ | .subn _ _ | .shl _ _ | .sneReg _ _ _ | .ldI _ | .jpV0 _ | .rnd _ _ | .drw _ _ _
  | .skp _ | .sknp _ | .ldVxDT _ | .ldVxK _ | .ldDT _ | .ldST _ | .addI _ | .ldF _
  | .loadRegs _ => (0, 0)

/-- Whether a stored range has a byte in the glyph table: ranges only ascend, so its first byte. -/
def meetsGlyphs (range : Nat × Nat) : Bool :=
  decide (0 < range.2) && decide (range.1 < glyphBytes)

/-- Whether a STEP stores to the glyph table, be it the byte already there. A STEP that waits for a
key or raises an error stores nothing. -/
def stepStoresToGlyphs (s : State) : Bool :=
  match step s with
  | .fault _ => false
  | .refused _ => false
  | .next _ =>
    match s.awaitingKey with
    | true => false
    | false =>
      match decodeWord s.cfg.strictDecode (s.fetchWord s.pc) with
      | .accepted i => meetsGlyphs (storedRange i s)
      | .rejected _ => false

/-- The premise of R53 on one command: it is no STEP that stores to the glyph table. RESET writes the
table itself, LOAD writes from 0x200, the other commands write no memory. -/
def sparesGlyphs (c : Command) (s : State) : Bool :=
  match c with
  | .step => !stepStoresToGlyphs s
  | .reset | .load _ | .tick | .setKey _ _ | .clearRedraw => true

/-- The premise of R53 on a run of commands that goes on after errors: every command of it spares the
glyph table in the state it is issued in. -/
def runSparesGlyphs (cs : List Command) (s : State) : Bool :=
  match cs with
  | [] => true
  | c :: rest =>
    sparesGlyphs c s &&
      match stateAfter (runCommand c s) with
      | some t => runSparesGlyphs rest t
      | none => true

end Sys2Proof.Machine
end

