-- ==== Sys2Proof/Safety.lean ====
section
/-! DEFINITION. The terms claims are stated in: what a form may write (its frame), the illegal words
as the spec lists them, the closed form of a sprite, the invariants, and the states a driver can
reach. -/

namespace Sys2Proof.Machine

/-! ## Frames -/

/-- What a form may write. Everything not named stays as it was. -/
structure Writes where
  /-- General registers. -/
  regs : List Reg := []
  /-- The index register. -/
  index : Bool := false
  /-- The program counter. -/
  pc : Bool := false
  /-- The return stack and SP. -/
  stack : Bool := false
  /-- The delay timer. -/
  dt : Bool := false
  /-- The sound timer. -/
  st : Bool := false
  /-- The frame buffer and the redraw flag. -/
  screen : Bool := false
  /-- The key wait, `awaitingKey` and `keyTargetRegister`. -/
  keyWait : Bool := false
  /-- The model's index of the next random byte. -/
  draws : Bool := false
  /-- The first address stored to. -/
  lo : Nat := 0
  /-- How many bytes are stored. -/
  len : Nat := 0

/-- `t` is `s` but for what `w` names: every general register not named, every other register, every
pixel, key and flag, and every byte of memory outside the bytes stored. -/
structure Frame (w : Writes) (s t : State) : Prop where
  regs : ∀ r : Reg, r ∉ w.regs → t.getV r = s.getV r
  index : w.index = false → t.i = s.i
  pc : w.pc = false → t.pc = s.pc
  stack : w.stack = false → t.stack = s.stack ∧ t.sp = s.sp
  dt : w.dt = false → t.dt = s.dt
  st : w.st = false → t.st = s.st
  screen : w.screen = false → t.disp = s.disp ∧ t.redrawPending = s.redrawPending
  keyWait : w.keyWait = false → t.awaitingKey = s.awaitingKey ∧ t.keyTarget = s.keyTarget
  keys : t.keys = s.keys
  draws : w.draws = false → t.draws = s.draws
  cfg : t.cfg = s.cfg
  bytes : ∀ a, a < w.lo ∨ w.lo + w.len ≤ a → t.peek a = s.peek a

/-! ## What a step fetches -/

/-- The program counter passes the checks of the fetch (`30_encoding.md` R82): even, at least the
program start, its word inside memory. -/
structure FetchOk (s : State) : Prop where
  even : s.pc.toNat % 2 = 0
  start : 0x200 ≤ s.pc.toNat
  inside : s.pc.toNat + 1 ≤ 0xFFF

/-- A step of `s` runs the instruction `i`: no key is awaited, the fetch succeeds, and the word at
the program counter decodes to `i` (`30_encoding.md` R80 to R84). -/
structure Fetches (s : State) (i : Instr) : Prop where
  awake : s.awaitingKey = false
  fetch : FetchOk s
  word : decodeWord s.cfg.strictDecode (s.fetchWord s.pc) = .accepted i

/-! ## Skips (`40_flow.md` R103) -/

/-- The six skip instructions. -/
def IsSkip (i : Instr) : Prop :=
  match i with
  | .seImm _ _ | .sneImm _ _ | .seReg _ _ _ | .sneReg _ _ _ | .skp _ | .sknp _ => True
  | _ => False

/-- The condition of a skip instruction; of a key test, on a key index 0 to 15. -/
def SkipTaken (i : Instr) (s : State) : Prop :=
  match i with
  | .seImm x nn => s.getV x = nn
  | .sneImm x nn => s.getV x ≠ nn
  | .seReg x y _ => s.getV x = s.getV y
  | .sneReg x y _ => s.getV x ≠ s.getV y
  | .skp x => ∃ k : Reg, (s.getV x).toNat = k.val ∧ s.keys[k.val] = true
  | .sknp x => ∃ k : Reg, (s.getV x).toNat = k.val ∧ s.keys[k.val] = false
  | _ => False

/-! ## Who writes the registers and the program counter -/

/-- The general registers an instruction may write: its destination (`10_state.md` R21), V0 to Vx for
LD Vx, [I], and VF for the six instructions that write it as a flag (R23). -/
def WritesV (i : Instr) (r : Reg) : Prop :=
  match i with
  | .ldImm x _ | .addImm x _ | .ldReg x _ | .orReg x _ | .andReg x _ | .xorReg x _ | .rnd x _
  | .ldVxDT x => r = x
  | .addReg x _ | .subReg x _ | .shr x _ | .subn x _ | .shl x _ => r = x ∨ r = VF
  | .drw _ _ _ => r = VF
  | .loadRegs x => r ≤ x
  | _ => False

/-- The instructions that write the program counter in their body: the jumps, CALL, RET and the skips
(`10_state.md` R26). -/
def WritesPc (i : Instr) : Prop :=
  match i with
  | .ret _ | .jp _ | .call _ | .jpV0 _ => True
  | j => IsSkip j

/-! ## What an observer cannot tell apart -/

/-- A fault with a function applied to the state it leaves. -/
def mapFault (g : State → State) (f : Fault) : Fault :=
  match f with
  | .oversizeProgram a t => .oversizeProgram a (g t)
  | .stackOverflow a t => .stackOverflow a (g t)
  | .stackUnderflow a t => .stackUnderflow a (g t)
  | .unknownOpcode a t => .unknownOpcode a (g t)
  | .memoryOutOfRange a t => .memoryOutOfRange a (g t)
  | .protectedWrite a t => .protectedWrite a (g t)
  | .fetchMisaligned a t => .fetchMisaligned a (g t)
  | .fetchBelowProgramStart a t => .fetchBelowProgramStart a (g t)
  | .keyIndexOutOfRange a t => .keyIndexOutOfRange a (g t)

/-- An outcome with a function applied to the state it leaves. -/
def mapOutcome (g : State → State) (o : Outcome) : Outcome :=
  match o with
  | .next t => .next (g t)
  | .fault f => .fault (mapFault g f)
  | .refused r => .refused r

/-- A state with its outputs to the adapters assigned: the redraw flag and the sound timer, which no
instruction reads (`10_state.md` R29, R32, R37). -/
def State.withOutputs (s : State) (redraw : Bool) (st : Byte) : State :=
  { s with redrawPending := redraw, st := st }

/-! ## The illegal words (`30_encoding.md` R79) -/

/-- The words R79 lists, read off the word as a number. -/
def IllegalWord (strict : Bool) (w : Word) : Prop :=
  let g := w.toNat / 0x1000
  let x := w.toNat / 0x100 % 16
  let n := w.toNat % 16
  let nn := w.toNat % 256
  (g = 0x0 ∧ (nn ∉ [0xE0, 0xEE] ∨ (strict = true ∧ x ≠ 0))) ∨
  (g = 0x8 ∧ n ∈ [0x8, 0x9, 0xA, 0xB, 0xC, 0xD, 0xF]) ∨
  (g = 0xE ∧ nn ∉ [0x9E, 0xA1]) ∨
  (g = 0xF ∧ nn ∉ [0x07, 0x0A, 0x15, 0x18, 0x1E, 0x29, 0x33, 0x55, 0x65]) ∨
  (strict = true ∧ (g = 0x5 ∨ g = 0x9) ∧ n ≠ 0)

/-! ## Sprites (`43_display.md` R191) -/

/-- Whether a sprite of `n` rows `rows 0 .. rows (n - 1)` drawn at `(x0, y0)` has a set bit on the
pixel `(px, py)`, coordinates wrapping. -/
def SpriteSets (x0 y0 : Nat) (rows : Nat → Byte) (n : Nat) (px : Fin 64) (py : Fin 32) : Prop :=
  ∃ r c, r < n ∧ c < 8 ∧ (rows r).getLsbD (7 - c) = true ∧
    px.val = (x0 + c) % 64 ∧ py.val = (y0 + r) % 32

/-! ## Invariants -/

/-- The memory keeps its canonical form, the parameters meet their one constraint, and a core that
protects low memory has its reset contents there (`20_memory.md` R52, R53). Of a core that does not
protect it, `sparesGlyphs` and `runSparesGlyphs` (Machine/Glyphs.lean) are the premise R53 asks for. -/
structure Inv (s : State) : Prop where
  mem : s.mem.wf s.cfg = true
  cfg : s.cfg.wf
  low : s.cfg.protectLow = true → ∀ a, a < programStart → s.peek a = resetByte s.cfg a

/-- The bounds `10_state.md` R26 derives for the program counter, with the one on the return stack
that they need: a return address is the address after a fetched CALL. -/
structure PcBounded (s : State) : Prop where
  pc : s.pc.toNat ≤ 0x10FE
  stack : ∀ k : Fin 16, s.stack[k.val].toNat ≤ 0x1000

/-! ## Runs -/

/-- The states a driver reaches from RESET by any interleaving of commands, going on after an error
or not (`60_exceptions.md` R233, R253). -/
inductive Reachable (cfg : Config) : State → Prop where
  | reset (draws : Nat) : Reachable cfg (State.resetWith cfg draws)
  | command (c : Command) (s t : State) :
      Reachable cfg s → stateAfter (runCommand c s) = some t → Reachable cfg t

/-- A run of commands is safe when no command of it returns an error (`60_exceptions.md` R236). -/
def SafeRun (cs : List Command) (s : State) : Prop := ∃ t, runCommands cs s = .next t

end Sys2Proof.Machine
end

