-- ==== Sys2Proof/Certificates/Slice0/Obligations.lean ====
section
/-! DEFINITION. The statements for the provers, file by file of the spec. A statement about an
instruction is about `exec`, whose state already has `PC == A + 2` (`30_encoding.md` R83);
`StepRunsDecodedInstruction` carries it to a step. `Frame` says what a form leaves unchanged. A clause
that says which instruction a word decodes to rests on encodings the spec marks as general knowledge
(its G1 to G4; PRESUMED, log 1). -/

open Sys2Proof Sys2Proof.Machine

/-! ## Encoding (`30_encoding.md`) -/

/-- Words written out from the patterns of `30_encoding.md` R75, each with the instruction it stands
for: a sanity statement. The patterns are the spec's general knowledge (D1; log 1). -/
def Obligations.SpecWordsDecode : Prop :=
  decodeWord false 0x00E0 = .accepted (.cls 0) ∧
  decodeWord false 0x00EE = .accepted (.ret 0) ∧
  decodeWord false 0x2ABC = .accepted (.call 0xABC) ∧
  decodeWord false 0x3A5C = .accepted (.seImm 10 0x5C) ∧
  decodeWord false 0x5AB0 = .accepted (.seReg 10 11 0) ∧
  decodeWord false 0x8AB5 = .accepted (.subReg 10 11) ∧
  decodeWord false 0xDABC = .accepted (.drw 10 11 0xC) ∧
  decodeWord false 0xEA9E = .accepted (.skp 10) ∧
  decodeWord false 0xFA33 = .accepted (.ldB 10) ∧
  decodeWord false 0x0123 = .rejected (.unknownOpcode 0x0123)

/-- Decoding the word, or the bytes, of a well-formed instruction gives it back, at every value of
its operands and under either setting of `STRICT_DECODE` (`30_encoding.md` sections 1 and 2). -/
def Obligations.DecodeOfEncodeIsTheInstruction : Prop :=
  ∀ (strict : Bool) (i : Instr), WellFormed strict i = true →
    decodeWord strict (encode i) = .accepted i ∧
    ∀ rest, decodeBytes strict (encodeBytes i ++ rest) = .accepted (i, rest)

/-- A word that decodes is the word of the instruction it decodes to, which is well formed: no bit of
a word is dropped and no two words decode to one instruction. That unexamined bits are kept is the
model's choice (log 12). -/
def Obligations.LegalWordsEncodeBack : Prop :=
  ∀ (strict : Bool) (w : Word) (i : Instr), decodeWord strict w = .accepted i →
    encode i = w ∧ WellFormed strict i = true

/-- The words rejected are exactly those listed as illegal (`30_encoding.md` section 2; the spec's
decision D3 and its general knowledge, log 1 and 12), and every other word is an instruction. -/
def Obligations.RejectedWordsAreExactlyTheIllegal : Prop :=
  ∀ (strict : Bool) (w : Word),
    (IllegalWord strict w → decodeWord strict w = .rejected (.unknownOpcode w)) ∧
    (¬IllegalWord strict w → ∃ i, decodeWord strict w = .accepted i)

/-- R71: `w = mem[A] ++ mem[A+1]`, big-endian: `w[15:8] = mem[A]`, `w[7:0] = mem[A+1]`. -/
def Obligations.FetchedWordIsBigEndian : Prop :=
  ∀ (s : State) (a : Word),
    (s.fetchWord a).toNat = (s.peek a.toNat).toNat * 256 + (s.peek (a.toNat + 1)).toNat ∧
    (s.fetchWord a).extractLsb' 8 8 = s.peek a.toNat ∧
    (s.fetchWord a).extractLsb' 0 8 = s.peek (a.toNat + 1)

/-! ## The instruction cycle (`30_encoding.md` section 3, `60_exceptions.md` section 1) -/

/-- While `awaitingKey` is true STEP writes nothing and succeeds, whatever else the state holds
(`30_encoding.md` section 3, R80's first action). -/
def Obligations.KeyWaitStallsStep : Prop :=
  ∀ s : State, s.awaitingKey = true → step s = .next s

/-- The checks of the program counter in their order, each leaving the state as it was. The checks
and their order are the spec's decisions D7 and D18 (log 11). -/
def Obligations.FetchChecksInOrder : Prop :=
  ∀ s : State, s.awaitingKey = false →
    (s.pc.toNat % 2 = 1 → step s = .fault (.fetchMisaligned s.pc.toNat s)) ∧
    (s.pc.toNat % 2 = 0 → s.pc.toNat < 0x200 →
      step s = .fault (.fetchBelowProgramStart s.pc.toNat s)) ∧
    (s.pc.toNat % 2 = 0 → 0x200 ≤ s.pc.toNat → 0xFFF < s.pc.toNat + 1 →
      step s = .fault (.memoryOutOfRange s.pc.toNat s))

/-- A step whose fetch succeeds first does `PC <- (PC + 2) mod 2^16`; then it runs the decoded
instruction on that state, `PC == A + 2`, or on an illegal word leaves that state (`30_encoding.md`
section 3). What an illegal word leaves is the spec's inference and decision D8 (log 5). -/
def Obligations.StepRunsDecodedInstruction : Prop :=
  (∀ (s : State) (i : Instr), Fetches s i → step s = exec i { s with pc := s.pc + 2 }) ∧
  (∀ (s : State) (e : DecodeError), s.awaitingKey = false → FetchOk s →
    decodeWord s.cfg.strictDecode (s.fetchWord s.pc) = .rejected e →
    stateAfter (step s) = some { s with pc := s.pc + 2 })

/-- An illegal word raises UnknownOpcode with the word as its info, the program counter advanced and
nothing else written. The state after is the spec's decision D8, the info D4 (log 5). -/
def Obligations.IllegalWordRaisesUnknownOpcode : Prop :=
  ∀ s : State, s.awaitingKey = false → FetchOk s →
    IllegalWord s.cfg.strictDecode (s.fetchWord s.pc) →
    step s = .fault (.unknownOpcode (s.fetchWord s.pc).toNat { s with pc := s.pc + 2 })

/-- Every error is precise: the state it leaves is the state before the step, with the generic
advance applied exactly when the fetch succeeded. The spec's decision D8 (log 5). -/
def Obligations.EveryErrorIsPrecise : Prop :=
  ∀ (s : State) (f : Fault), step s = .fault f →
    (FetchOk s → faultState f = { s with pc := s.pc + 2 }) ∧
    (¬FetchOk s → faultState f = s ∧ step (faultState f) = .fault f)

/-- Each error of a step has the cause and the info value the table of `60_exceptions.md` section 1
gives it, MemoryOutOfRange the first failing address; LOAD's error is never a step's. The info values and the errors of the memory, the fetch and
the keys are the spec's decisions D4 to D7 and D10 (log 5, 9, 10, 11, 13). -/
def Obligations.ErrorsHaveTheListedCauses : Prop :=
  ∀ (s : State) (f : Fault), step s = .fault f →
    match f with
    | .oversizeProgram _ _ => False
    | .stackOverflow info _ => info = s.pc.toNat ∧ s.sp = 16 ∧ ∃ nnn, Fetches s (.call nnn)
    | .stackUnderflow info _ => info = s.pc.toNat ∧ s.sp = 0 ∧ ∃ u, Fetches s (.ret u)
    | .unknownOpcode info _ => FetchOk s ∧ info = (s.fetchWord s.pc).toNat ∧
        IllegalWord s.cfg.strictDecode (s.fetchWord s.pc)
    | .memoryOutOfRange info _ => 0xFFF < info ∧
        ((s.pc.toNat % 2 = 0 ∧ info = s.pc.toNat) ∨
          (info = max s.i.toNat 0x1000 ∧
            ((∃ x y n, Fetches s (.drw x y n) ∧ 0 < n.toNat ∧ 0xFFF < s.i.toNat + (n.toNat - 1)) ∨
              (∃ x, Fetches s (.ldB x) ∧ 0xFFF < s.i.toNat + 2) ∨
              (∃ x, Fetches s (.storeRegs x) ∧ 0xFFF < s.i.toNat + x.val) ∨
              (∃ x, Fetches s (.loadRegs x) ∧ 0xFFF < s.i.toNat + x.val))))
    | .protectedWrite info _ => info < 0x200 ∧ info = s.i.toNat ∧ s.cfg.protectLow = true ∧
        ((∃ x, Fetches s (.ldB x)) ∨ (∃ x, Fetches s (.storeRegs x)))
    | .fetchMisaligned info _ => info = s.pc.toNat ∧ s.pc.toNat % 2 = 1
    | .fetchBelowProgramStart info _ => info = s.pc.toNat ∧ s.pc.toNat % 2 = 0 ∧ s.pc.toNat < 0x200
    | .keyIndexOutOfRange info _ => 15 < info ∧
        ∃ x, info = (s.getV x).toNat ∧ (Fetches s (.skp x) ∨ Fetches s (.sknp x))

/-- No instruction is left without a meaning, in any state: every instruction may execute at any
time (`60_exceptions.md` section 5; the spec's decision D19, log 20). -/
def Obligations.NothingIsRefused : Prop :=
  (∀ (i : Instr) (s : State) (r : Refusal), exec i s ≠ .refused r) ∧
  (∀ (s : State) (r : Refusal), step s ≠ .refused r)

/-! ## Control transfer (`40_flow.md`) -/

/-- RET pops the topmost slot into PC, and underflows on an empty stack with only the generic advance
made. That the popped slot keeps its value is the spec's decision D12 (log 14). -/
def Obligations.ReturnPopsTheStack : Prop :=
  ∀ (u : Nibble) (s : State),
    (∀ k : Fin 16, s.sp.val = k.val + 1 →
      ∃ t, exec (.ret u) s = .next t ∧ t.pc = s.stack[k.val] ∧ t.sp.val = k.val ∧
        t.stack = s.stack ∧ Frame { pc := true, stack := true } s t) ∧
    (s.sp = 0 → exec (.ret u) s = .fault (.stackUnderflow (s.pc - 2).toNat s))

/-- JP nnn is group 0x1 and assigns PC, unchecked (`40_flow.md` section 1); an odd target or one below
0x200 faults at the next fetch. Those two faults and their order are the spec's decisions D7 and D18
(log 11). -/
def Obligations.JumpAssignsPc : Prop :=
  ∀ (strict : Bool) (nnn : Addr12) (s : State),
    decodeWord strict (wordAddr 0x1 nnn) = .accepted (.jp nnn) ∧
    ∃ t, exec (.jp nnn) s = .next t ∧ t.pc.toNat = nnn.toNat ∧ Frame { pc := true } s t ∧
      (s.awaitingKey = false → nnn.toNat % 2 = 1 → step t = .fault (.fetchMisaligned nnn.toNat t)) ∧
      (s.awaitingKey = false → nnn.toNat % 2 = 0 → nnn.toNat < 0x200 →
        step t = .fault (.fetchBelowProgramStart nnn.toNat t))

/-- R102: CALL nnn is group 0x2, pushes the address after itself and assigns PC; on a full stack it
overflows, the stack unchanged and only the generic advance made. -/
def Obligations.CallPushesAndJumps : Prop :=
  ∀ (strict : Bool) (nnn : Addr12) (s : State),
    decodeWord strict (wordAddr 0x2 nnn) = .accepted (.call nnn) ∧
    (∀ k : Fin 16, s.sp.val = k.val →
      ∃ t, exec (.call nnn) s = .next t ∧ t.stack[k.val] = s.pc ∧ t.sp.val = k.val + 1 ∧
        t.pc.toNat = nnn.toNat ∧ (∀ j : Fin 16, j ≠ k → t.stack[j.val] = s.stack[j.val]) ∧
        Frame { pc := true, stack := true } s t) ∧
    (s.sp = 16 → exec (.call nnn) s = .fault (.stackOverflow (s.pc - 2).toNat s))

/-- A CALL and the RET that answers it: PC comes back to the instruction after the CALL and the stack
pointer to where it was, no slot below it touched (`95_test_vectors.md` E5). -/
def Obligations.ReturnComesBackAfterCall : Prop :=
  ∀ (nnn : Addr12) (u : Nibble) (s : State), s.sp.val < 16 →
    ∃ t, exec (.call nnn) s = .next t ∧
      ∃ r, exec (.ret u) { t with pc := t.pc + 2 } = .next r ∧ r.pc = s.pc ∧ r.sp = s.sp ∧
        (∀ j : Fin 16, j.val ≠ s.sp.val → r.stack[j.val] = s.stack[j.val]) ∧
        Frame { stack := true } s r

/-- R104, R105: the skips on a literal, groups 0x3 and 0x4. -/
def Obligations.SkipsOnLiteral : Prop :=
  ∀ (strict : Bool) (x : Reg) (nn : Byte) (s : State),
    decodeWord strict (wordRegLit 0x3 x nn) = .accepted (.seImm x nn) ∧
    decodeWord strict (wordRegLit 0x4 x nn) = .accepted (.sneImm x nn) ∧
    (∃ t, exec (.seImm x nn) s = .next t ∧
      t.pc = (if s.getV x = nn then s.pc + 2 else s.pc) ∧ Frame { pc := true } s t) ∧
    (∃ t, exec (.sneImm x nn) s = .next t ∧
      t.pc = (if s.getV x = nn then s.pc else s.pc + 2) ∧ Frame { pc := true } s t)

/-- R106, R107: the skips on registers, groups 0x5 and 0x9; `n` is ignored unless `STRICT_DECODE`,
where it must be zero. Equal selectors always skip, or never. -/
def Obligations.SkipsOnRegisters : Prop :=
  ∀ (strict : Bool) (x y : Reg) (n : Nibble) (s : State),
    (strict = false ∨ n = 0 →
      decodeWord strict (wordRegReg 0x5 x y n) = .accepted (.seReg x y n) ∧
      decodeWord strict (wordRegReg 0x9 x y n) = .accepted (.sneReg x y n)) ∧
    (strict = true → n ≠ 0 →
      decodeWord strict (wordRegReg 0x5 x y n) = .rejected (.unknownOpcode (wordRegReg 0x5 x y n)) ∧
      decodeWord strict (wordRegReg 0x9 x y n) = .rejected (.unknownOpcode (wordRegReg 0x9 x y n))) ∧
    (∃ t, exec (.seReg x y n) s = .next t ∧
      t.pc = (if s.getV x = s.getV y then s.pc + 2 else s.pc) ∧
      (x = y → t.pc = s.pc + 2) ∧ Frame { pc := true } s t) ∧
    (∃ t, exec (.sneReg x y n) s = .next t ∧
      t.pc = (if s.getV x = s.getV y then s.pc else s.pc + 2) ∧
      (x = y → t.pc = s.pc) ∧ Frame { pc := true } s t)

/-- R103: a skip instruction that completes adds 2 to PC when its condition holds and changes
nothing at all otherwise, whatever the word skipped holds. -/
def Obligations.SkipsAddOneWordAndNothingElse : Prop :=
  ∀ (i : Instr) (s t : State), IsSkip i → exec i s = .next t →
    (SkipTaken i s → t = { s with pc := s.pc + 2 }) ∧ (¬SkipTaken i s → t = s)

/-- JP V0, nnn is group 0xB; the sum is at most 0x10FE and never wraps (`40_flow.md` section 2); an odd
sum, one below 0x200 or one above 0xFFE faults at the next fetch. Those three faults and their order are
the spec's decisions D7 and D18 (log 11). -/
def Obligations.JumpIndexedByV0 : Prop :=
  ∀ (strict : Bool) (nnn : Addr12) (s : State),
    decodeWord strict (wordAddr 0xB nnn) = .accepted (.jpV0 nnn) ∧
    ∃ t, exec (.jpV0 nnn) s = .next t ∧ t.pc.toNat = nnn.toNat + (s.getV 0).toNat ∧
      t.pc.toNat ≤ 0x10FE ∧ Frame { pc := true } s t ∧
      (s.awaitingKey = false → t.pc.toNat % 2 = 1 →
        step t = .fault (.fetchMisaligned t.pc.toNat t)) ∧
      (s.awaitingKey = false → t.pc.toNat % 2 = 0 → t.pc.toNat < 0x200 →
        step t = .fault (.fetchBelowProgramStart t.pc.toNat t)) ∧
      (s.awaitingKey = false → t.pc.toNat % 2 = 0 → 0xFFE < t.pc.toNat →
        step t = .fault (.memoryOutOfRange t.pc.toNat t))

/-! ## Loads and the ALU (`41_alu.md`) -/

/-- R131, R132: LD Vx, nn and ADD Vx, nn, groups 0x6 and 0x7; VF changes only as the destination. -/
def Obligations.LiteralLoadAndAdd : Prop :=
  ∀ (strict : Bool) (x : Reg) (nn : Byte) (s : State),
    decodeWord strict (wordRegLit 0x6 x nn) = .accepted (.ldImm x nn) ∧
    decodeWord strict (wordRegLit 0x7 x nn) = .accepted (.addImm x nn) ∧
    (∃ t, exec (.ldImm x nn) s = .next t ∧ t.getV x = nn ∧ Frame { regs := [x] } s t) ∧
    (∃ t, exec (.addImm x nn) s = .next t ∧
      (t.getV x).toNat = ((s.getV x).toNat + nn.toNat) % 256 ∧ Frame { regs := [x] } s t)

/-- R133 to R136: the move and the bitwise operations, group 0x8 with n 0 to 3, bit by bit; VF is
not reset. -/
def Obligations.MoveAndBitwise : Prop :=
  ∀ (strict : Bool) (x y : Reg) (s : State),
    decodeWord strict (wordRegReg 0x8 x y 0x0) = .accepted (.ldReg x y) ∧
    decodeWord strict (wordRegReg 0x8 x y 0x1) = .accepted (.orReg x y) ∧
    decodeWord strict (wordRegReg 0x8 x y 0x2) = .accepted (.andReg x y) ∧
    decodeWord strict (wordRegReg 0x8 x y 0x3) = .accepted (.xorReg x y) ∧
    (∃ t, exec (.ldReg x y) s = .next t ∧ t.getV x = s.getV y ∧ Frame { regs := [x] } s t) ∧
    (∃ t, exec (.orReg x y) s = .next t ∧
      (∀ k, (t.getV x).getLsbD k = ((s.getV x).getLsbD k || (s.getV y).getLsbD k)) ∧
      Frame { regs := [x] } s t) ∧
    (∃ t, exec (.andReg x y) s = .next t ∧
      (∀ k, (t.getV x).getLsbD k = ((s.getV x).getLsbD k && (s.getV y).getLsbD k)) ∧
      Frame { regs := [x] } s t) ∧
    (∃ t, exec (.xorReg x y) s = .next t ∧
      (∀ k, (t.getV x).getLsbD k = ((s.getV x).getLsbD k != (s.getV y).getLsbD k)) ∧
      Frame { regs := [x] } s t)

/-- R137: ADD Vx, Vy, group 0x8 with n 4; VF is the carry of the old values, written last. -/
def Obligations.AddSetsCarry : Prop :=
  ∀ (strict : Bool) (x y : Reg) (s : State),
    decodeWord strict (wordRegReg 0x8 x y 0x4) = .accepted (.addReg x y) ∧
    ∃ t, exec (.addReg x y) s = .next t ∧
      t.getV VF = (if 255 < (s.getV x).toNat + (s.getV y).toNat then 1 else 0) ∧
      (x ≠ VF → (t.getV x).toNat = ((s.getV x).toNat + (s.getV y).toNat) % 256) ∧
      Frame { regs := [x, VF] } s t

/-- R138, R140: SUB and SUBN, group 0x8 with n 5 and 7; VF is 1 exactly when there is no borrow,
from the old values, written last. -/
def Obligations.SubtractSetsNoBorrow : Prop :=
  ∀ (strict : Bool) (x y : Reg) (s : State),
    decodeWord strict (wordRegReg 0x8 x y 0x5) = .accepted (.subReg x y) ∧
    decodeWord strict (wordRegReg 0x8 x y 0x7) = .accepted (.subn x y) ∧
    (∃ t, exec (.subReg x y) s = .next t ∧
      t.getV VF = (if (s.getV y).toNat ≤ (s.getV x).toNat then 1 else 0) ∧
      (x ≠ VF → ((t.getV x).toNat : Int) = ((s.getV x).toNat - (s.getV y).toNat : Int) % 256) ∧
      Frame { regs := [x, VF] } s t) ∧
    (∃ t, exec (.subn x y) s = .next t ∧
      t.getV VF = (if (s.getV x).toNat ≤ (s.getV y).toNat then 1 else 0) ∧
      (x ≠ VF → ((t.getV x).toNat : Int) = ((s.getV y).toNat - (s.getV x).toNat : Int) % 256) ∧
      Frame { regs := [x, VF] } s t)

/-- R139, R141: SHR and SHL, group 0x8 with n 6 and 0xE; the source is Vx whatever y is, VF the bit
shifted out, written last. -/
def Obligations.ShiftsByOneBit : Prop :=
  ∀ (strict : Bool) (x y : Reg) (s : State),
    decodeWord strict (wordRegReg 0x8 x y 0x6) = .accepted (.shr x y) ∧
    decodeWord strict (wordRegReg 0x8 x y 0xE) = .accepted (.shl x y) ∧
    (∃ t, exec (.shr x y) s = .next t ∧
      t.getV VF = (if (s.getV x).toNat % 2 = 1 then 1 else 0) ∧
      (x ≠ VF → (t.getV x).toNat = (s.getV x).toNat / 2) ∧ Frame { regs := [x, VF] } s t) ∧
    (∃ t, exec (.shl x y) s = .next t ∧
      t.getV VF = (if 128 ≤ (s.getV x).toNat then 1 else 0) ∧
      (x ≠ VF → (t.getV x).toNat = (s.getV x).toNat * 2 % 256) ∧ Frame { regs := [x, VF] } s t)

/-- After any instruction that writes VF as a flag VF is 0 or 1, also when VF is its destination
(`10_state.md` section 3; `70_reset_and_hazards.md` section 4). -/
def Obligations.FlagIsZeroOrOne : Prop :=
  ∀ (i : Instr) (s t : State),
    (∃ x y n, i = .addReg x y ∨ i = .subReg x y ∨ i = .shr x y ∨ i = .subn x y ∨ i = .shl x y ∨
      i = .drw x y n) →
    exec i s = .next t → t.getV VF = 0 ∨ t.getV VF = 1

/-- RND Vx, nn, group 0xC: the random byte, a free value (the spec's decision D14; log 4), masked by
nn; no bit outside nn is ever set, so nn 0 writes 0 whatever the draw. -/
def Obligations.RandomByteIsMasked : Prop :=
  ∀ (strict : Bool) (x : Reg) (nn : Byte) (s : State),
    decodeWord strict (wordRegLit 0xC x nn) = .accepted (.rnd x nn) ∧
    ∃ t, exec (.rnd x nn) s = .next t ∧
      (∀ k, (t.getV x).getLsbD k = ((Config.rand8 s.draws).getLsbD k && nn.getLsbD k)) ∧
      (nn = 0 → t.getV x = 0) ∧ t.draws = s.draws + 1 ∧
      Frame { regs := [x], draws := true } s t

/-! ## Index register and memory (`42_index_memory.md`) -/

/-- R160, R161, R162: LD I, nnn is group 0xA; ADD I, Vx and LD F, Vx are group 0xF with nn 0x1E and
0x29; I is 16 bits, not masked, and VF is not written. -/
def Obligations.IndexRegisterUpdates : Prop :=
  ∀ (strict : Bool) (x : Reg) (nnn : Addr12) (s : State),
    decodeWord strict (wordAddr 0xA nnn) = .accepted (.ldI nnn) ∧
    decodeWord strict (wordRegLit 0xF x 0x1E) = .accepted (.addI x) ∧
    decodeWord strict (wordRegLit 0xF x 0x29) = .accepted (.ldF x) ∧
    (∃ t, exec (.ldI nnn) s = .next t ∧ t.i.toNat = nnn.toNat ∧ Frame { index := true } s t) ∧
    (∃ t, exec (.addI x) s = .next t ∧
      t.i.toNat = (s.i.toNat + (s.getV x).toNat) % 65536 ∧ Frame { index := true } s t) ∧
    (∃ t, exec (.ldF x) s = .next t ∧ t.i.toNat = (s.getV x).toNat * 5 ∧
      Frame { index := true } s t)

/-- LD B, Vx completes when its three addresses may be written, and stores the decimal digits,
hundreds first, at I, I+1 and I+2 and nowhere else. The checks are the spec's decisions D5, D6 and
D8 (log 9, 10). -/
def Obligations.BcdStoresThreeDigits : Prop :=
  ∀ (x : Reg) (s : State), s.i.toNat + 2 ≤ 0xFFF → (s.cfg.protectLow = true → 0x200 ≤ s.i.toNat) →
    ∃ t, exec (.ldB x) s = .next t ∧
      (t.peek (s.effAddr 0)).toNat = (s.getV x).toNat / 100 ∧
      (t.peek (s.effAddr 1)).toNat = (s.getV x).toNat / 10 % 10 ∧
      (t.peek (s.effAddr 2)).toNat = (s.getV x).toNat % 10 ∧
      Frame { lo := s.effAddr 0, len := 3 } s t

/-- LD [I], Vx completes when its addresses may be written, and stores V0 to Vx, inclusive of x, at I
onward and nowhere else. That I is unchanged is the spec's decision D11, the checks D5, D6 and D8
(log 9, 10, 14). -/
def Obligations.StoreRegistersInclusive : Prop :=
  ∀ (x : Reg) (s : State), s.i.toNat + x.val ≤ 0xFFF →
    (s.cfg.protectLow = true → 0x200 ≤ s.i.toNat) →
    ∃ t, exec (.storeRegs x) s = .next t ∧
      (∀ k : Reg, k ≤ x → t.peek (s.effAddr k.val) = s.getV k) ∧
      Frame { lo := s.effAddr 0, len := x.val + 1 } s t

/-- LD Vx, [I] completes when its addresses may be read, and loads V0 to Vx, inclusive of x, from I
onward and no other register. That I is unchanged is the spec's decision D11, the checks D5 and D8
(log 10, 14). -/
def Obligations.LoadRegistersInclusive : Prop :=
  ∀ (x : Reg) (s : State), s.i.toNat + x.val ≤ 0xFFF →
    ∃ t, exec (.loadRegs x) s = .next t ∧
      (∀ k : Reg, k ≤ x → t.getV k = s.peek (s.effAddr k.val)) ∧
      Frame { regs := (List.finRange 16).filter (· ≤ x) } s t

/-- The registers stored by LD [I], Vx come back with LD Vx, [I] from any state with the same memory,
parameters and I (`42_index_memory.md` sections 2 and 3). That both read the same addresses rests on LD
[I], Vx leaving I as it was, the spec's decision D11 (log 14). -/
def Obligations.StoredRegistersLoadBack : Prop :=
  ∀ (x : Reg) (s t t' : State), exec (.storeRegs x) s = .next t →
    t'.mem = t.mem → t'.cfg = t.cfg → t'.i = t.i →
    ∃ u, exec (.loadRegs x) t' = .next u ∧ ∀ k : Reg, k ≤ x → u.getV k = s.getV k

/-- A multi-byte instruction whose range fails writes nothing and raises the error of its lowest
failing address: out of range at the first address above 0xFFF, protection at I. The addresses are those
of `42_index_memory.md` R163 to R165 and `43_display.md` R191; the checks are the spec's decisions D5, D6
and D8 (log 9, 10). -/
def Obligations.FailingRangeReportsLowestAddress : Prop :=
  ∀ (x y : Reg) (n : Nibble) (s : State),
    (s.cfg.protectLow = true → s.i.toNat < 0x200 →
      exec (.ldB x) s = .fault (.protectedWrite s.i.toNat s) ∧
      exec (.storeRegs x) s = .fault (.protectedWrite s.i.toNat s)) ∧
    (0xFFF < s.i.toNat + 2 →
      exec (.ldB x) s = .fault (.memoryOutOfRange (max s.i.toNat 0x1000) s)) ∧
    (0xFFF < s.i.toNat + x.val →
      exec (.storeRegs x) s = .fault (.memoryOutOfRange (max s.i.toNat 0x1000) s) ∧
      exec (.loadRegs x) s = .fault (.memoryOutOfRange (max s.i.toNat 0x1000) s)) ∧
    (0 < n.toNat → 0xFFF < s.i.toNat + (n.toNat - 1) →
      exec (.drw x y n) s = .fault (.memoryOutOfRange (max s.i.toNat 0x1000) s))

/-! ## Frame buffer (`43_display.md`) -/

/-- R190: CLS is group 0x0 with nn 0xE0; every pixel off, the redraw flag set, VF not written. -/
def Obligations.ClearScreenBlanksEveryPixel : Prop :=
  ∀ (strict : Bool) (s : State),
    decodeWord strict 0x00E0 = .accepted (.cls 0) ∧
    (∀ u, decodeWord false (wordRegLit 0x0 u 0xE0) = .accepted (.cls (regBits u))) ∧
    ∀ u, ∃ t, exec (.cls u) s = .next t ∧ (∀ px py, t.disp.pixel px py = false) ∧
      t.redrawPending = true ∧ Frame { screen := true } s t

/-- DRW completes when its rows may be read: it toggles exactly the pixels its set bits lie on,
coordinates wrapping on both axes, VF is 1 exactly when one of them was on, and the redraw flag is
set. The coordinates, the rows and the collision are those of the state before. The checks are the
spec's decisions D5 and D8 (log 10). -/
def Obligations.DrawTogglesTheSprite : Prop :=
  ∀ (x y : Reg) (n : Nibble) (s : State), n.toNat = 0 ∨ s.i.toNat + (n.toNat - 1) ≤ 0xFFF →
    ∃ t, exec (.drw x y n) s = .next t ∧
      (∀ px py,
        (SpriteSets (s.getV x).toNat (s.getV y).toNat (fun r => s.peek (s.effAddr r)) n.toNat px py →
          t.disp.pixel px py = !s.disp.pixel px py) ∧
        (¬SpriteSets (s.getV x).toNat (s.getV y).toNat (fun r => s.peek (s.effAddr r)) n.toNat px py →
          t.disp.pixel px py = s.disp.pixel px py)) ∧
      ((∃ px py, SpriteSets (s.getV x).toNat (s.getV y).toNat (fun r => s.peek (s.effAddr r))
          n.toNat px py ∧ s.disp.pixel px py = true) → t.getV VF = 1) ∧
      ((¬∃ px py, SpriteSets (s.getV x).toNat (s.getV y).toNat (fun r => s.peek (s.effAddr r))
          n.toNat px py ∧ s.disp.pixel px py = true) → t.getV VF = 0) ∧
      t.redrawPending = true ∧ Frame { regs := [VF], screen := true } s t

/-- Drawing the same sprite twice at the same position restores the screen; on a blank screen the
first draw reports VF 0 and the second VF 1 exactly when the sprite has a set bit
(`95_test_vectors.md` E9 with the premise of C7). With VF as a coordinate the position is not the
same, since the first draw writes VF; `DrawTogglesTheSprite` has that form. -/
def Obligations.DrawingTwiceRestoresTheScreen : Prop :=
  ∀ (x y : Reg) (n : Nibble) (s t : State), x ≠ VF → y ≠ VF → exec (.drw x y n) s = .next t →
    ∃ u, exec (.drw x y n) t = .next u ∧ u.disp = s.disp ∧
      (s.disp = Screen.blank → t.getV VF = 0 ∧
        (u.getV VF = 1 ↔ ∃ r c, r < n.toNat ∧ c < 8 ∧ (s.peek (s.effAddr r)).getLsbD (7 - c) = true))

/-! ## Keys and timers (`44_timers_keys.md`) -/

/-- SKP and SKNP test the level of the key Vx names; above 15 they raise KeyIndexOutOfRange, which is
the spec's decision D10 (log 13). -/
def Obligations.SkipsOnKeyLevel : Prop :=
  ∀ (x : Reg) (s : State),
    (∀ k : Reg, (s.getV x).toNat = k.val →
      (∃ t, exec (.skp x) s = .next t ∧
        t.pc = (if s.keys[k.val] = true then s.pc + 2 else s.pc) ∧ Frame { pc := true } s t) ∧
      (∃ t, exec (.sknp x) s = .next t ∧
        t.pc = (if s.keys[k.val] = true then s.pc else s.pc + 2) ∧ Frame { pc := true } s t)) ∧
    (15 < (s.getV x).toNat →
      exec (.skp x) s = .fault (.keyIndexOutOfRange (s.getV x).toNat s) ∧
      exec (.sknp x) s = .fault (.keyIndexOutOfRange (s.getV x).toNat s))

/-- R212, R214, R215: the timer registers, group 0xF with nn 0x07, 0x15, 0x18; no step
changes DT but one that runs LD DT, Vx. -/
def Obligations.TimerRegistersReadAndWritten : Prop :=
  ∀ (strict : Bool) (x : Reg) (s : State),
    decodeWord strict (wordRegLit 0xF x 0x07) = .accepted (.ldVxDT x) ∧
    decodeWord strict (wordRegLit 0xF x 0x15) = .accepted (.ldDT x) ∧
    decodeWord strict (wordRegLit 0xF x 0x18) = .accepted (.ldST x) ∧
    (∃ t, exec (.ldVxDT x) s = .next t ∧ t.getV x = s.dt ∧ Frame { regs := [x] } s t) ∧
    (∃ t, exec (.ldDT x) s = .next t ∧ t.dt = s.getV x ∧ Frame { dt := true } s t) ∧
    (∃ t, exec (.ldST x) s = .next t ∧ t.st = s.getV x ∧ toneOn t = (s.getV x != 0) ∧
      Frame { st := true } s t) ∧
    (∀ t, step s = .next t → (∀ y, ¬Fetches s (.ldDT y)) → t.dt = s.dt)

/-- LD Vx, K, group 0xF with nn 0x0A, starts the wait and writes neither Vx nor PC, whatever keys are
held; from then on a step changes nothing. That a held key does not resolve the wait is the spec's
decision D22 (log 15). -/
def Obligations.AwaitKeyStartsTheWait : Prop :=
  ∀ (strict : Bool) (x : Reg) (s : State),
    decodeWord strict (wordRegLit 0xF x 0x0A) = .accepted (.ldVxK x) ∧
    ∃ t, exec (.ldVxK x) s = .next t ∧ t.awaitingKey = true ∧ t.keyTarget = x ∧
      Frame { keyWait := true } s t ∧ step t = .next t

/-! ## Commands (`60_exceptions.md`, `70_reset_and_hazards.md`) -/

/-- R240: TICK decrements each timer, saturating at zero, in a key wait too, and touches nothing
else. -/
def Obligations.TickCountsBothTimersDown : Prop :=
  ∀ s : State, ∃ t, runCommand .tick s = .next t ∧ t.dt.toNat = s.dt.toNat - 1 ∧
    t.st.toNat = s.st.toNat - 1 ∧ t = { s with dt := t.dt, st := t.st }

/-- SETKEY ignores an index outside 0 to 15; else it writes the key, and a press resolves a pending
wait: the index goes to the target register and the wait ends. A release never resolves one
(`60_exceptions.md` section 4; the spec's decision D22, log 15). -/
def Obligations.SetKeyWritesAndResolves : Prop :=
  ∀ (pressed : Bool) (s : State),
    (∀ index : Int, index < 0 ∨ 15 < index → runCommand (.setKey index pressed) s = .next s) ∧
    (∀ k : Reg, ∃ t, runCommand (.setKey k.val pressed) s = .next t ∧
      t.keys[k.val] = pressed ∧ (∀ j : Reg, j ≠ k → t.keys[j.val] = s.keys[j.val]) ∧
      (s.awaitingKey = true → pressed = true →
        t.awaitingKey = false ∧ (t.getV s.keyTarget).toNat = k.val ∧
        (∀ r : Reg, r ≠ s.keyTarget → t.getV r = s.getV r)) ∧
      (s.awaitingKey = false ∨ pressed = false → t = { s with keys := t.keys }) ∧
      t = { s with keys := t.keys, v := t.v, awaitingKey := t.awaitingKey })

/-- CLEAR_REDRAW clears the redraw flag and writes nothing else. The command is the spec's decision
D24 (log 16). -/
def Obligations.ClearRedrawClearsOnlyTheFlag : Prop :=
  ∀ s : State, runCommand .clearRedraw s = .next { s with redrawPending := false }

/-- R273, R274: LOAD copies at most 3584 bytes to 0x200 onward, clears nothing beyond them and resets
nothing; a longer program is OversizeProgram and nothing is written. -/
def Obligations.LoadCopiesOrFails : Prop :=
  ∀ (bytes : List Byte) (s : State),
    (bytes.length ≤ 3584 → ∃ t, runCommand (.load bytes) s = .next t ∧
      (∀ k (h : k < bytes.length), t.peek (0x200 + k) = bytes[k]) ∧
      (∀ a, a < 0x200 ∨ 0x200 + bytes.length ≤ a → t.peek a = s.peek a) ∧
      t = { s with mem := t.mem }) ∧
    (3584 < bytes.length → runCommand (.load bytes) s = .fault (.oversizeProgram 0 s))

/-- R38: after RESET, from any state, every element has the value of the table. -/
def Obligations.ResetGivesEveryElementItsValue : Prop :=
  ∀ s : State, ∃ t, runCommand .reset s = .next t ∧
    (∀ a (h : a < 80), t.peek a = s.cfg.glyphTable[a]) ∧
    (s.cfg.wf → t.peek 0 = 0xF0) ∧
    (∀ a, 0x50 ≤ a → a ≤ 0xFFF → t.peek a = 0) ∧
    (∀ r, t.getV r = 0) ∧ t.i = 0 ∧ t.pc = 0x200 ∧
    (∀ k : Fin 16, t.stack[k.val] = 0) ∧ t.sp = 0 ∧ t.dt = 0 ∧ t.st = 0 ∧
    (∀ px py, t.disp.pixel px py = false) ∧ (∀ k : Reg, t.keys[k.val] = false) ∧
    t.redrawPending = true ∧ t.awaitingKey = false ∧ t.keyTarget = 0

/-- Before the first RESET every other command is refused, and RESET gives the reset state. The
refusal is the spec's decision D13 (log 7). -/
def Obligations.OnlyResetBeforeTheFirstReset : Prop :=
  ∀ (cfg : Config) (draws : Nat) (c : Command),
    (c ≠ .reset → Device.command c (.constructed cfg draws) = .refused .beforeFirstReset) ∧
    Device.command .reset (.constructed cfg draws) = .next (.running (State.resetWith cfg draws))

/-- R250: the key wait is entered only by LD Vx, K and left only by a SETKEY press of a key 0 to 15 or
by RESET; every piece of state survives it under STEP, and TICK, SETKEY, CLEAR_REDRAW and LOAD keep
working during it. -/
def Obligations.KeyWaitIsEnteredAndLeftOnlySo : Prop :=
  ∀ (c : Command) (s t : State), runCommand c s = .next t →
    (s.awaitingKey = false → t.awaitingKey = true → c = .step ∧ ∃ x, Fetches s (.ldVxK x)) ∧
    (s.awaitingKey = true → t.awaitingKey = false →
      c = .reset ∨ ∃ k : Reg, c = .setKey k.val true) ∧
    (s.awaitingKey = true → c = .step → t = s) ∧
    (c ≠ .reset → c ≠ .step → (∀ index p, c ≠ .setKey index p) →
      ∃ u, runCommand c { s with awaitingKey := false } = .next u ∧
        t = { u with awaitingKey := s.awaitingKey })

/-! ## The whole machine -/

/-- What a step changes, only the instructions named for it change: the writers of every element
(`10_state.md` sections 2 to 11; `20_memory.md` section 1), a general register or VF as a flag through
`WritesV`, PC but for the generic advance through `WritesPc`. That RET changes no slot of the stack is
the spec's decision D12 (log 14); `draws` is the model's own (log 4). -/
def Obligations.OnlyTheListedInstructionsWrite : Prop :=
  ∀ s t : State, step s = .next t →
    (∀ r, t.getV r ≠ s.getV r → ∃ i, Fetches s i ∧ WritesV i r) ∧
    (t.pc ≠ s.pc → s.awaitingKey = false) ∧
    (s.awaitingKey = false → t.pc ≠ s.pc + 2 → ∃ i, Fetches s i ∧ WritesPc i) ∧
    (t.draws ≠ s.draws → ∃ x nn, Fetches s (.rnd x nn)) ∧
    (t.i ≠ s.i → (∃ nnn, Fetches s (.ldI nnn)) ∨ (∃ x, Fetches s (.addI x)) ∨
      ∃ x, Fetches s (.ldF x)) ∧
    (t.stack ≠ s.stack → ∃ nnn, Fetches s (.call nnn)) ∧
    (t.sp ≠ s.sp → (∃ nnn, Fetches s (.call nnn)) ∨ ∃ u, Fetches s (.ret u)) ∧
    (t.dt ≠ s.dt → ∃ x, Fetches s (.ldDT x)) ∧
    (t.st ≠ s.st → ∃ x, Fetches s (.ldST x)) ∧
    (t.disp ≠ s.disp ∨ t.redrawPending ≠ s.redrawPending →
      (∃ u, Fetches s (.cls u)) ∨ ∃ x y n, Fetches s (.drw x y n)) ∧
    (t.awaitingKey ≠ s.awaitingKey ∨ t.keyTarget ≠ s.keyTarget → ∃ x, Fetches s (.ldVxK x)) ∧
    (∀ a, t.peek a ≠ s.peek a → (∃ x, Fetches s (.ldB x)) ∨ ∃ x, Fetches s (.storeRegs x)) ∧
    t.keys = s.keys ∧ t.cfg = s.cfg

/-- A step keeps the invariant: memory stays canonical, and a core that protects low memory keeps its
reset contents there, the glyph table among them (`20_memory.md` section 2). The canonical form is
the model's own (log 8), the protection the spec's decision D6 (log 9). -/
def Obligations.StepKeepsTheInvariant : Prop :=
  ∀ s t : State, Inv s → step s = .next t → Inv t

/-- Every command keeps the invariant, when it succeeds and when it fails. The canonical form is the
model's own (log 8), the protection the spec's decision D6 (log 9). -/
def Obligations.EveryCommandKeepsTheInvariant : Prop :=
  ∀ (c : Command) (s t : State), Inv s → stateAfter (runCommand c s) = some t → Inv t

/-- The reset state meets the invariants. -/
def Obligations.ResetMeetsTheInvariants : Prop :=
  Inv State.reset ∧ PcBounded State.reset

/-- With PROTECT_LOW_MEMORY no step writes a byte below 0x200, so no program reaches the glyph table,
in any state at all. The protection is the spec's decision D6 (log 9). -/
def Obligations.NoStepWritesLowMemory : Prop :=
  ∀ s t : State, s.cfg.protectLow = true → step s = .next t →
    ∀ a, a < 0x200 → t.peek a = s.peek a

/-- The bounds on the program counter and the return stack are kept by every command, when it
succeeds and when it fails, so that no write to PC is ever reduced modulo 2^16 (`10_state.md` section
5, where the spec derives the bound). -/
def Obligations.EveryCommandKeepsPcBounded : Prop :=
  ∀ (c : Command) (s t : State), PcBounded s → stateAfter (runCommand c s) = some t → PcBounded t

/-- Every state a driver reaches from RESET, by any interleaving of commands and going on after
errors or not, meets both invariants. -/
def Obligations.ReachableStatesMeetTheInvariants : Prop :=
  ∀ (cfg : Config) (s : State), cfg.wf → Reachable cfg s → Inv s ∧ PcBounded s ∧ s.cfg = cfg

/-- No program tells the outputs apart: two states that differ in the redraw flag and the sound timer
alone step alike, but for those two (`10_state.md` sections 7, 10 and 13). -/
def Obligations.ProgramsCannotSeeTheOutputs : Prop :=
  ∀ (s : State) (b : Bool) (z : Byte),
    mapOutcome (fun t => t.withOutputs false 0) (step (s.withOutputs b z)) =
      mapOutcome (fun t => t.withOutputs false 0) (step s)

/-- Only RND reads the random byte: every other instruction does the same whatever the draws are
(`60_exceptions.md` section 6; the spec's decision D14, log 4). -/
def Obligations.OnlyRandomReadsTheDraw : Prop :=
  ∀ (i : Instr) (s : State) (d : Nat), (∀ x nn, i ≠ .rnd x nn) →
    exec i { s with draws := d } = mapOutcome (fun t => { t with draws := d }) (exec i s)

/-- Canonical memories that read alike are equal: the form of memory is canonical. The form is the
model's own (log 8). -/
def Obligations.CanonicalMemoriesAreEqual : Prop :=
  ∀ (cfg : Config) (m m' : Memory), m.wf cfg = true → m'.wf cfg = true →
    (∀ a, a < 4096 → m.read cfg a = m'.read cfg a) → m = m'

/-! ## The glyph table when low memory is not protected (`20_memory.md` R53) -/

/-- Only RESET and a STEP that the check flags reach the glyph table, whatever `PROTECT_LOW_MEMORY`
says: any other command leaves the bytes 0x000 to 0x04F as they were, when it succeeds and when it
fails (`20_memory.md` section 2; the spec's decision D6, log 9). -/
def Obligations.OnlyResetAndFlaggedStoresReachTheGlyphTable : Prop :=
  ∀ (c : Command) (s t : State), c ≠ .reset → stateAfter (runCommand c s) = some t →
    ∀ a, a < 0x50 → t.peek a ≠ s.peek a → c = .step ∧ stepStoresToGlyphs s = true

/-- A core that protects low memory meets the premise by itself, on every command and on every run;
a core that does not is flagged on each step that stores at I below 0x050. The protection is the spec's
decision D6 (log 9). -/
def Obligations.ProtectionMeetsTheGlyphPremise : Prop :=
  (∀ (c : Command) (s : State), s.cfg.protectLow = true → sparesGlyphs c s = true) ∧
  (∀ (cs : List Command) (s : State), s.cfg.protectLow = true → runSparesGlyphs cs s = true) ∧
  (∀ (s : State) (x : Reg), s.cfg.protectLow = false → s.i.toNat < 0x50 →
    Fetches s (.ldB x) ∨ Fetches s (.storeRegs x) → stepStoresToGlyphs s = true)

/-- A command that spares the glyph table keeps it as RESET wrote it, whatever `PROTECT_LOW_MEMORY`
says, when the command succeeds and when it fails (`20_memory.md` section 2; the spec's decision D6,
log 9). -/
def Obligations.SparingCommandKeepsTheGlyphTable : Prop :=
  ∀ (c : Command) (s t : State), s.glyphsIntact = true → sparesGlyphs c s = true →
    stateAfter (runCommand c s) = some t → t.glyphsIntact = true

/-- A run of commands that passes the check of R53's premise, going on after errors or not, ends with
the glyph table as RESET wrote it (`20_memory.md` section 2; the spec's decision D6, log 9). -/
def Obligations.CheckedRunKeepsTheGlyphTable : Prop :=
  ∀ (cs : List Command) (s t : State), s.glyphsIntact = true → runSparesGlyphs cs s = true →
    runThrough cs s = some t → t.glyphsIntact = true ∧ ∀ a (h : a < 80), t.peek a = t.cfg.glyphTable[a]
end

