-- ==== Sys2Proof/Laws/Decode.lean ====
section
/-! SUPPORT. The fields of a word of each form, a word put together again from its fields, the fields
as numbers, and a word and its two bytes (`30_encoding.md` R71, R72). -/

namespace Sys2Proof

@[simp] theorem toFin_regBits (r : Reg) : (regBits r).toFin = r := rfl
@[simp] theorem regBits_toFin (u : Nibble) : regBits u.toFin = u := rfl
theorem regBits_inj {r q : Reg} : regBits r = regBits q ↔ r = q :=
  ⟨fun h => by rw [← toFin_regBits r, h, toFin_regBits], fun h => by rw [h]⟩

/-! ## The fields of a form -/

@[simp] theorem fieldG_wordRegReg (g : Nibble) (x y : Reg) (n : Nibble) : fieldG (wordRegReg g x y n) = g := by
  simp only [fieldG, wordRegReg]; ext i hi; simp; grind

@[simp] theorem fieldN_wordRegReg (g : Nibble) (x y : Reg) (n : Nibble) : fieldN (wordRegReg g x y n) = n := by
  simp only [fieldN, wordRegReg]; ext i hi; simp; grind

@[simp] theorem fieldG_wordRegLit (g : Nibble) (x : Reg) (nn : Byte) : fieldG (wordRegLit g x nn) = g := by
  simp only [fieldG, wordRegLit]; ext i hi; simp; grind

@[simp] theorem fieldNN_wordRegLit (g : Nibble) (x : Reg) (nn : Byte) : fieldNN (wordRegLit g x nn) = nn := by
  simp only [fieldNN, wordRegLit]; ext i hi; simp; grind

@[simp] theorem fieldG_wordAddr (g : Nibble) (nnn : Addr12) : fieldG (wordAddr g nnn) = g := by
  simp only [fieldG, wordAddr]; ext i hi; simp; grind

@[simp] theorem fieldNNN_wordAddr (g : Nibble) (nnn : Addr12) : fieldNNN (wordAddr g nnn) = nnn := by
  simp only [fieldNNN, wordAddr]; ext i hi; simp; grind

@[simp] theorem fieldX_wordRegReg (g : Nibble) (x y : Reg) (n : Nibble) : fieldX (wordRegReg g x y n) = x := by
  have h : (wordRegReg g x y n).extractLsb' 8 4 = regBits x := by
    simp only [wordRegReg]; ext i hi; simp; grind
  exact (congrArg BitVec.toFin h).trans (toFin_regBits x)

@[simp] theorem fieldY_wordRegReg (g : Nibble) (x y : Reg) (n : Nibble) : fieldY (wordRegReg g x y n) = y := by
  have h : (wordRegReg g x y n).extractLsb' 4 4 = regBits y := by
    simp only [wordRegReg]; ext i hi; simp; grind
  exact (congrArg BitVec.toFin h).trans (toFin_regBits y)

@[simp] theorem fieldX_wordRegLit (g : Nibble) (x : Reg) (nn : Byte) : fieldX (wordRegLit g x nn) = x := by
  have h : (wordRegLit g x nn).extractLsb' 8 4 = regBits x := by
    simp only [wordRegLit]; ext i hi; simp; grind
  exact (congrArg BitVec.toFin h).trans (toFin_regBits x)

/-! ## A word from its fields -/

theorem wordRegReg_fields (w : Word) :
    wordRegReg (fieldG w) (fieldX w) (fieldY w) (fieldN w) = w := by
  change (w.extractLsb' 12 4 ++ w.extractLsb' 8 4) ++ (w.extractLsb' 4 4 ++ w.extractLsb' 0 4) = w
  ext i hi; simp; grind

theorem wordRegLit_fields (w : Word) : wordRegLit (fieldG w) (fieldX w) (fieldNN w) = w := by
  change (w.extractLsb' 12 4 ++ w.extractLsb' 8 4) ++ w.extractLsb' 0 8 = w
  ext i hi; simp; grind

theorem wordAddr_fields (w : Word) : wordAddr (fieldG w) (fieldNNN w) = w := by
  change w.extractLsb' 12 4 ++ w.extractLsb' 0 12 = w
  ext i hi; simp; grind

/-! ## The fields as numbers -/

theorem fieldG_toNat (w : Word) : (fieldG w).toNat = w.toNat / 0x1000 := by
  simp only [fieldG, BitVec.extractLsb'_toNat, Nat.shiftRight_eq_div_pow]
  have := w.isLt
  omega

theorem fieldX_val (w : Word) : (fieldX w).val = w.toNat / 0x100 % 16 := by
  change (w.extractLsb' 8 4).toNat = _
  simp only [BitVec.extractLsb'_toNat, Nat.shiftRight_eq_div_pow]

theorem fieldY_val (w : Word) : (fieldY w).val = w.toNat / 0x10 % 16 := by
  change (w.extractLsb' 4 4).toNat = _
  simp only [BitVec.extractLsb'_toNat, Nat.shiftRight_eq_div_pow]

theorem fieldN_toNat (w : Word) : (fieldN w).toNat = w.toNat % 16 := by
  simp [fieldN]

theorem fieldNN_toNat (w : Word) : (fieldNN w).toNat = w.toNat % 256 := by
  simp [fieldNN]

theorem fieldNNN_toNat (w : Word) : (fieldNNN w).toNat = w.toNat % 4096 := by
  simp [fieldNNN]

/-! ## The last group, and unexamined bits -/

/-- A primary group that is none of 0x0 to 0xE is 0xF. -/
theorem group_eq_15 {g : Nibble} (h0 : g ≠ 0) (h1 : g ≠ 1) (h2 : g ≠ 2) (h3 : g ≠ 3) (h4 : g ≠ 4)
    (h5 : g ≠ 5) (h6 : g ≠ 6) (h7 : g ≠ 7) (h8 : g ≠ 8) (h9 : g ≠ 9) (hA : g ≠ 10) (hB : g ≠ 11)
    (hC : g ≠ 12) (hD : g ≠ 13) (hE : g ≠ 14) : g = 15 := by
  bv_omega

/-- Accepting with unexamined bits, inverted. -/
theorem acceptUnexamined_accepted {strict : Bool} {u : Nibble} {i j : Instr} {w : Word}
    (h : acceptUnexamined strict u i w = .accepted j) : j = i ∧ (strict = false ∨ u = 0) := by
  unfold acceptUnexamined at h
  split at h
  · simp_all
  · split at h <;> simp_all

theorem acceptUnexamined_rejected {strict : Bool} {u : Nibble} {i : Instr} {w : Word}
    {e : DecodeError} (h : acceptUnexamined strict u i w = .rejected e) :
    e = .unknownOpcode w ∧ strict = true ∧ u ≠ 0 := by
  unfold acceptUnexamined at h
  split at h
  · cases h
  · split at h <;> simp_all

/-! ## A word and its bytes -/

@[simp] theorem wordOfBytes_bytes (w : Word) : wordOfBytes (highByte w) (lowByte w) = w := by
  simp only [wordOfBytes, highByte, lowByte]
  ext i hi; simp; grind

@[simp] theorem highByte_wordOfBytes (hi lo : Byte) : highByte (wordOfBytes hi lo) = hi := by
  simp only [highByte, wordOfBytes, BitVec.extractLsb'_append_eq_left]

@[simp] theorem lowByte_wordOfBytes (hi lo : Byte) : lowByte (wordOfBytes hi lo) = lo := by
  simp only [lowByte, wordOfBytes, BitVec.extractLsb'_append_eq_right]

theorem wordOfBytes_toNat (hi lo : Byte) :
    (wordOfBytes hi lo).toNat = hi.toNat * 256 + lo.toNat := by
  have h := lo.isLt
  simp only [wordOfBytes, BitVec.toNat_append, Nat.shiftLeft_eq]
  rw [Nat.mul_comm, ← Nat.two_pow_add_eq_or_of_lt h]

/-- The byte decoder reads its first word and hands back the rest. -/
theorem decodeBytes_word (strict : Bool) (w : Word) (rest : List Byte) :
    decodeBytes strict (highByte w :: lowByte w :: rest) =
      match decodeWord strict w with
      | .accepted i => .accepted (i, rest)
      | .rejected e => .rejected e := by
  cases h : decodeWord strict w <;> simp [decodeBytes, h]

end Sys2Proof
end

