-- ==== Sys2Proof/Laws/State.lean ====
section
/-! SUPPORT. One lemma per field per update of the state, and what reading a register or a byte
gives after each, so that no later proof unfolds an update. -/

namespace Sys2Proof.Machine

/-! ## The fields of an updated state -/

/-! ### `State.setV` -/

@[simp] theorem State.setV_mem (s : State) (r : Reg) (b : Byte) : (s.setV r b).mem = s.mem := rfl
@[simp] theorem State.setV_v (s : State) (r : Reg) (b : Byte) : (s.setV r b).v = s.v.set r.val b := rfl
@[simp] theorem State.setV_i (s : State) (r : Reg) (b : Byte) : (s.setV r b).i = s.i := rfl
@[simp] theorem State.setV_pc (s : State) (r : Reg) (b : Byte) : (s.setV r b).pc = s.pc := rfl
@[simp] theorem State.setV_stack (s : State) (r : Reg) (b : Byte) : (s.setV r b).stack = s.stack := rfl
@[simp] theorem State.setV_sp (s : State) (r : Reg) (b : Byte) : (s.setV r b).sp = s.sp := rfl
@[simp] theorem State.setV_dt (s : State) (r : Reg) (b : Byte) : (s.setV r b).dt = s.dt := rfl
@[simp] theorem State.setV_st (s : State) (r : Reg) (b : Byte) : (s.setV r b).st = s.st := rfl
@[simp] theorem State.setV_disp (s : State) (r : Reg) (b : Byte) : (s.setV r b).disp = s.disp := rfl
@[simp] theorem State.setV_keys (s : State) (r : Reg) (b : Byte) : (s.setV r b).keys = s.keys := rfl
@[simp] theorem State.setV_redrawPending (s : State) (r : Reg) (b : Byte) : (s.setV r b).redrawPending = s.redrawPending := rfl
@[simp] theorem State.setV_awaitingKey (s : State) (r : Reg) (b : Byte) : (s.setV r b).awaitingKey = s.awaitingKey := rfl
@[simp] theorem State.setV_keyTarget (s : State) (r : Reg) (b : Byte) : (s.setV r b).keyTarget = s.keyTarget := rfl
@[simp] theorem State.setV_draws (s : State) (r : Reg) (b : Byte) : (s.setV r b).draws = s.draws := rfl
@[simp] theorem State.setV_cfg (s : State) (r : Reg) (b : Byte) : (s.setV r b).cfg = s.cfg := rfl

/-! ### `State.setVWithFlag` -/

@[simp] theorem State.setVWithFlag_mem (s : State) (x : Reg) (b : Byte) (f : Bool) : (s.setVWithFlag x b f).mem = s.mem := rfl
@[simp] theorem State.setVWithFlag_v (s : State) (x : Reg) (b : Byte) (f : Bool) : (s.setVWithFlag x b f).v = (s.v.set x.val b).set VF.val (flagByte f) := rfl
@[simp] theorem State.setVWithFlag_i (s : State) (x : Reg) (b : Byte) (f : Bool) : (s.setVWithFlag x b f).i = s.i := rfl
@[simp] theorem State.setVWithFlag_pc (s : State) (x : Reg) (b : Byte) (f : Bool) : (s.setVWithFlag x b f).pc = s.pc := rfl
@[simp] theorem State.setVWithFlag_stack (s : State) (x : Reg) (b : Byte) (f : Bool) : (s.setVWithFlag x b f).stack = s.stack := rfl
@[simp] theorem State.setVWithFlag_sp (s : State) (x : Reg) (b : Byte) (f : Bool) : (s.setVWithFlag x b f).sp = s.sp := rfl
@[simp] theorem State.setVWithFlag_dt (s : State) (x : Reg) (b : Byte) (f : Bool) : (s.setVWithFlag x b f).dt = s.dt := rfl
@[simp] theorem State.setVWithFlag_st (s : State) (x : Reg) (b : Byte) (f : Bool) : (s.setVWithFlag x b f).st = s.st := rfl
@[simp] theorem State.setVWithFlag_disp (s : State) (x : Reg) (b : Byte) (f : Bool) : (s.setVWithFlag x b f).disp = s.disp := rfl
@[simp] theorem State.setVWithFlag_keys (s : State) (x : Reg) (b : Byte) (f : Bool) : (s.setVWithFlag x b f).keys = s.keys := rfl
@[simp] theorem State.setVWithFlag_redrawPending (s : State) (x : Reg) (b : Byte) (f : Bool) : (s.setVWithFlag x b f).redrawPending = s.redrawPending := rfl
@[simp] theorem State.setVWithFlag_awaitingKey (s : State) (x : Reg) (b : Byte) (f : Bool) : (s.setVWithFlag x b f).awaitingKey = s.awaitingKey := rfl
@[simp] theorem State.setVWithFlag_keyTarget (s : State) (x : Reg) (b : Byte) (f : Bool) : (s.setVWithFlag x b f).keyTarget = s.keyTarget := rfl
@[simp] theorem State.setVWithFlag_draws (s : State) (x : Reg) (b : Byte) (f : Bool) : (s.setVWithFlag x b f).draws = s.draws := rfl
@[simp] theorem State.setVWithFlag_cfg (s : State) (x : Reg) (b : Byte) (f : Bool) : (s.setVWithFlag x b f).cfg = s.cfg := rfl

/-! ### `State.randomAnd` -/

@[simp] theorem State.randomAnd_mem (s : State) (x : Reg) (nn b : Byte) : (s.randomAnd x nn b).mem = s.mem := rfl
@[simp] theorem State.randomAnd_v (s : State) (x : Reg) (nn b : Byte) : (s.randomAnd x nn b).v = s.v.set x.val (b &&& nn) := rfl
@[simp] theorem State.randomAnd_i (s : State) (x : Reg) (nn b : Byte) : (s.randomAnd x nn b).i = s.i := rfl
@[simp] theorem State.randomAnd_pc (s : State) (x : Reg) (nn b : Byte) : (s.randomAnd x nn b).pc = s.pc := rfl
@[simp] theorem State.randomAnd_stack (s : State) (x : Reg) (nn b : Byte) : (s.randomAnd x nn b).stack = s.stack := rfl
@[simp] theorem State.randomAnd_sp (s : State) (x : Reg) (nn b : Byte) : (s.randomAnd x nn b).sp = s.sp := rfl
@[simp] theorem State.randomAnd_dt (s : State) (x : Reg) (nn b : Byte) : (s.randomAnd x nn b).dt = s.dt := rfl
@[simp] theorem State.randomAnd_st (s : State) (x : Reg) (nn b : Byte) : (s.randomAnd x nn b).st = s.st := rfl
@[simp] theorem State.randomAnd_disp (s : State) (x : Reg) (nn b : Byte) : (s.randomAnd x nn b).disp = s.disp := rfl
@[simp] theorem State.randomAnd_keys (s : State) (x : Reg) (nn b : Byte) : (s.randomAnd x nn b).keys = s.keys := rfl
@[simp] theorem State.randomAnd_redrawPending (s : State) (x : Reg) (nn b : Byte) : (s.randomAnd x nn b).redrawPending = s.redrawPending := rfl
@[simp] theorem State.randomAnd_awaitingKey (s : State) (x : Reg) (nn b : Byte) : (s.randomAnd x nn b).awaitingKey = s.awaitingKey := rfl
@[simp] theorem State.randomAnd_keyTarget (s : State) (x : Reg) (nn b : Byte) : (s.randomAnd x nn b).keyTarget = s.keyTarget := rfl
@[simp] theorem State.randomAnd_draws (s : State) (x : Reg) (nn b : Byte) : (s.randomAnd x nn b).draws = s.draws := rfl
@[simp] theorem State.randomAnd_cfg (s : State) (x : Reg) (nn b : Byte) : (s.randomAnd x nn b).cfg = s.cfg := rfl

/-! ### `State.advance` -/

@[simp] theorem State.advance_mem (s : State) : s.advance.mem = s.mem := rfl
@[simp] theorem State.advance_v (s : State) : s.advance.v = s.v := rfl
@[simp] theorem State.advance_i (s : State) : s.advance.i = s.i := rfl
@[simp] theorem State.advance_pc (s : State) : s.advance.pc = s.pc + 2 := rfl
@[simp] theorem State.advance_stack (s : State) : s.advance.stack = s.stack := rfl
@[simp] theorem State.advance_sp (s : State) : s.advance.sp = s.sp := rfl
@[simp] theorem State.advance_dt (s : State) : s.advance.dt = s.dt := rfl
@[simp] theorem State.advance_st (s : State) : s.advance.st = s.st := rfl
@[simp] theorem State.advance_disp (s : State) : s.advance.disp = s.disp := rfl
@[simp] theorem State.advance_keys (s : State) : s.advance.keys = s.keys := rfl
@[simp] theorem State.advance_redrawPending (s : State) : s.advance.redrawPending = s.redrawPending := rfl
@[simp] theorem State.advance_awaitingKey (s : State) : s.advance.awaitingKey = s.awaitingKey := rfl
@[simp] theorem State.advance_keyTarget (s : State) : s.advance.keyTarget = s.keyTarget := rfl
@[simp] theorem State.advance_draws (s : State) : s.advance.draws = s.draws := rfl
@[simp] theorem State.advance_cfg (s : State) : s.advance.cfg = s.cfg := rfl

/-! ### `State.jumpTo` -/

@[simp] theorem State.jumpTo_mem (s : State) (w : Word) : (s.jumpTo w).mem = s.mem := rfl
@[simp] theorem State.jumpTo_v (s : State) (w : Word) : (s.jumpTo w).v = s.v := rfl
@[simp] theorem State.jumpTo_i (s : State) (w : Word) : (s.jumpTo w).i = s.i := rfl
@[simp] theorem State.jumpTo_pc (s : State) (w : Word) : (s.jumpTo w).pc = w := rfl
@[simp] theorem State.jumpTo_stack (s : State) (w : Word) : (s.jumpTo w).stack = s.stack := rfl
@[simp] theorem State.jumpTo_sp (s : State) (w : Word) : (s.jumpTo w).sp = s.sp := rfl
@[simp] theorem State.jumpTo_dt (s : State) (w : Word) : (s.jumpTo w).dt = s.dt := rfl
@[simp] theorem State.jumpTo_st (s : State) (w : Word) : (s.jumpTo w).st = s.st := rfl
@[simp] theorem State.jumpTo_disp (s : State) (w : Word) : (s.jumpTo w).disp = s.disp := rfl
@[simp] theorem State.jumpTo_keys (s : State) (w : Word) : (s.jumpTo w).keys = s.keys := rfl
@[simp] theorem State.jumpTo_redrawPending (s : State) (w : Word) : (s.jumpTo w).redrawPending = s.redrawPending := rfl
@[simp] theorem State.jumpTo_awaitingKey (s : State) (w : Word) : (s.jumpTo w).awaitingKey = s.awaitingKey := rfl
@[simp] theorem State.jumpTo_keyTarget (s : State) (w : Word) : (s.jumpTo w).keyTarget = s.keyTarget := rfl
@[simp] theorem State.jumpTo_draws (s : State) (w : Word) : (s.jumpTo w).draws = s.draws := rfl
@[simp] theorem State.jumpTo_cfg (s : State) (w : Word) : (s.jumpTo w).cfg = s.cfg := rfl

/-! ### `State.setI` -/

@[simp] theorem State.setI_mem (s : State) (w : Word) : (s.setI w).mem = s.mem := rfl
@[simp] theorem State.setI_v (s : State) (w : Word) : (s.setI w).v = s.v := rfl
@[simp] theorem State.setI_i (s : State) (w : Word) : (s.setI w).i = w := rfl
@[simp] theorem State.setI_pc (s : State) (w : Word) : (s.setI w).pc = s.pc := rfl
@[simp] theorem State.setI_stack (s : State) (w : Word) : (s.setI w).stack = s.stack := rfl
@[simp] theorem State.setI_sp (s : State) (w : Word) : (s.setI w).sp = s.sp := rfl
@[simp] theorem State.setI_dt (s : State) (w : Word) : (s.setI w).dt = s.dt := rfl
@[simp] theorem State.setI_st (s : State) (w : Word) : (s.setI w).st = s.st := rfl
@[simp] theorem State.setI_disp (s : State) (w : Word) : (s.setI w).disp = s.disp := rfl
@[simp] theorem State.setI_keys (s : State) (w : Word) : (s.setI w).keys = s.keys := rfl
@[simp] theorem State.setI_redrawPending (s : State) (w : Word) : (s.setI w).redrawPending = s.redrawPending := rfl
@[simp] theorem State.setI_awaitingKey (s : State) (w : Word) : (s.setI w).awaitingKey = s.awaitingKey := rfl
@[simp] theorem State.setI_keyTarget (s : State) (w : Word) : (s.setI w).keyTarget = s.keyTarget := rfl
@[simp] theorem State.setI_draws (s : State) (w : Word) : (s.setI w).draws = s.draws := rfl
@[simp] theorem State.setI_cfg (s : State) (w : Word) : (s.setI w).cfg = s.cfg := rfl

/-! ### `State.poke` -/

@[simp] theorem State.poke_mem (s : State) (a : Nat) (b : Byte) : (s.poke a b).mem = s.mem.write s.cfg a b := rfl
@[simp] theorem State.poke_v (s : State) (a : Nat) (b : Byte) : (s.poke a b).v = s.v := rfl
@[simp] theorem State.poke_i (s : State) (a : Nat) (b : Byte) : (s.poke a b).i = s.i := rfl
@[simp] theorem State.poke_pc (s : State) (a : Nat) (b : Byte) : (s.poke a b).pc = s.pc := rfl
@[simp] theorem State.poke_stack (s : State) (a : Nat) (b : Byte) : (s.poke a b).stack = s.stack := rfl
@[simp] theorem State.poke_sp (s : State) (a : Nat) (b : Byte) : (s.poke a b).sp = s.sp := rfl
@[simp] theorem State.poke_dt (s : State) (a : Nat) (b : Byte) : (s.poke a b).dt = s.dt := rfl
@[simp] theorem State.poke_st (s : State) (a : Nat) (b : Byte) : (s.poke a b).st = s.st := rfl
@[simp] theorem State.poke_disp (s : State) (a : Nat) (b : Byte) : (s.poke a b).disp = s.disp := rfl
@[simp] theorem State.poke_keys (s : State) (a : Nat) (b : Byte) : (s.poke a b).keys = s.keys := rfl
@[simp] theorem State.poke_redrawPending (s : State) (a : Nat) (b : Byte) : (s.poke a b).redrawPending = s.redrawPending := rfl
@[simp] theorem State.poke_awaitingKey (s : State) (a : Nat) (b : Byte) : (s.poke a b).awaitingKey = s.awaitingKey := rfl
@[simp] theorem State.poke_keyTarget (s : State) (a : Nat) (b : Byte) : (s.poke a b).keyTarget = s.keyTarget := rfl
@[simp] theorem State.poke_draws (s : State) (a : Nat) (b : Byte) : (s.poke a b).draws = s.draws := rfl
@[simp] theorem State.poke_cfg (s : State) (a : Nat) (b : Byte) : (s.poke a b).cfg = s.cfg := rfl

/-! ### `State.pokeRun` -/

@[simp] theorem State.pokeRun_mem (s : State) (a : Nat) (bs : List Byte) : (s.pokeRun a bs).mem = s.mem.writeRun s.cfg a bs := rfl
@[simp] theorem State.pokeRun_v (s : State) (a : Nat) (bs : List Byte) : (s.pokeRun a bs).v = s.v := rfl
@[simp] theorem State.pokeRun_i (s : State) (a : Nat) (bs : List Byte) : (s.pokeRun a bs).i = s.i := rfl
@[simp] theorem State.pokeRun_pc (s : State) (a : Nat) (bs : List Byte) : (s.pokeRun a bs).pc = s.pc := rfl
@[simp] theorem State.pokeRun_stack (s : State) (a : Nat) (bs : List Byte) : (s.pokeRun a bs).stack = s.stack := rfl
@[simp] theorem State.pokeRun_sp (s : State) (a : Nat) (bs : List Byte) : (s.pokeRun a bs).sp = s.sp := rfl
@[simp] theorem State.pokeRun_dt (s : State) (a : Nat) (bs : List Byte) : (s.pokeRun a bs).dt = s.dt := rfl
@[simp] theorem State.pokeRun_st (s : State) (a : Nat) (bs : List Byte) : (s.pokeRun a bs).st = s.st := rfl
@[simp] theorem State.pokeRun_disp (s : State) (a : Nat) (bs : List Byte) : (s.pokeRun a bs).disp = s.disp := rfl
@[simp] theorem State.pokeRun_keys (s : State) (a : Nat) (bs : List Byte) : (s.pokeRun a bs).keys = s.keys := rfl
@[simp] theorem State.pokeRun_redrawPending (s : State) (a : Nat) (bs : List Byte) : (s.pokeRun a bs).redrawPending = s.redrawPending := rfl
@[simp] theorem State.pokeRun_awaitingKey (s : State) (a : Nat) (bs : List Byte) : (s.pokeRun a bs).awaitingKey = s.awaitingKey := rfl
@[simp] theorem State.pokeRun_keyTarget (s : State) (a : Nat) (bs : List Byte) : (s.pokeRun a bs).keyTarget = s.keyTarget := rfl
@[simp] theorem State.pokeRun_draws (s : State) (a : Nat) (bs : List Byte) : (s.pokeRun a bs).draws = s.draws := rfl
@[simp] theorem State.pokeRun_cfg (s : State) (a : Nat) (bs : List Byte) : (s.pokeRun a bs).cfg = s.cfg := rfl

/-! ### `State.skipIf` -/

@[simp] theorem State.skipIf_mem (s : State) (c : Bool) : (s.skipIf c).mem = s.mem := by
  cases c <;> rfl
@[simp] theorem State.skipIf_v (s : State) (c : Bool) : (s.skipIf c).v = s.v := by
  cases c <;> rfl
@[simp] theorem State.skipIf_i (s : State) (c : Bool) : (s.skipIf c).i = s.i := by
  cases c <;> rfl
@[simp] theorem State.skipIf_stack (s : State) (c : Bool) : (s.skipIf c).stack = s.stack := by
  cases c <;> rfl
@[simp] theorem State.skipIf_sp (s : State) (c : Bool) : (s.skipIf c).sp = s.sp := by
  cases c <;> rfl
@[simp] theorem State.skipIf_dt (s : State) (c : Bool) : (s.skipIf c).dt = s.dt := by
  cases c <;> rfl
@[simp] theorem State.skipIf_st (s : State) (c : Bool) : (s.skipIf c).st = s.st := by
  cases c <;> rfl
@[simp] theorem State.skipIf_disp (s : State) (c : Bool) : (s.skipIf c).disp = s.disp := by
  cases c <;> rfl
@[simp] theorem State.skipIf_keys (s : State) (c : Bool) : (s.skipIf c).keys = s.keys := by
  cases c <;> rfl
@[simp] theorem State.skipIf_redrawPending (s : State) (c : Bool) : (s.skipIf c).redrawPending = s.redrawPending := by
  cases c <;> rfl
@[simp] theorem State.skipIf_awaitingKey (s : State) (c : Bool) : (s.skipIf c).awaitingKey = s.awaitingKey := by
  cases c <;> rfl
@[simp] theorem State.skipIf_keyTarget (s : State) (c : Bool) : (s.skipIf c).keyTarget = s.keyTarget := by
  cases c <;> rfl
@[simp] theorem State.skipIf_draws (s : State) (c : Bool) : (s.skipIf c).draws = s.draws := by
  cases c <;> rfl
@[simp] theorem State.skipIf_cfg (s : State) (c : Bool) : (s.skipIf c).cfg = s.cfg := by
  cases c <;> rfl

theorem State.skipIf_pc (s : State) (c : Bool) :
    (s.skipIf c).pc = if c then s.pc + 2 else s.pc := by cases c <;> rfl

/-! ## Reading a register -/

theorem State.getV_eq (s : State) (r : Reg) : s.getV r = s.v[r.val] := rfl

/-- Reading a register depends on the register file alone. -/
theorem State.getV_congr {s t : State} (h : t.v = s.v) (r : Reg) : t.getV r = s.getV r := by
  simp only [State.getV, h]

theorem State.getV_setV (s : State) (r q : Reg) (b : Byte) :
    (s.setV r b).getV q = if r = q then b else s.getV q := by
  simp [State.getV, State.setV, Vector.getElem_set, Fin.ext_iff]

@[simp] theorem State.getV_setV_same (s : State) (r : Reg) (b : Byte) : (s.setV r b).getV r = b := by
  simp [State.getV_setV]

theorem State.getV_setV_other (s : State) {r q : Reg} (b : Byte) (h : q ≠ r) :
    (s.setV r b).getV q = s.getV q := by
  simp [State.getV_setV, h.symm]

@[simp] theorem State.getV_setVWithFlag_VF (s : State) (x : Reg) (b : Byte) (f : Bool) :
    (s.setVWithFlag x b f).getV VF = flagByte f := by
  simp [State.setVWithFlag]

theorem State.getV_setVWithFlag_dest (s : State) {x : Reg} (b : Byte) (f : Bool) (h : x ≠ VF) :
    (s.setVWithFlag x b f).getV x = b := by
  simp [State.setVWithFlag, State.getV_setV, h.symm]

theorem State.getV_setVWithFlag_other (s : State) {x q : Reg} (b : Byte) (f : Bool)
    (h : q ≠ x) (hf : q ≠ VF) : (s.setVWithFlag x b f).getV q = s.getV q := by
  simp [State.setVWithFlag, State.getV_setV, h.symm, hf.symm]

@[simp] theorem State.getV_advance (s : State) (r : Reg) : s.advance.getV r = s.getV r := rfl
@[simp] theorem State.getV_jumpTo (s : State) (w : Word) (r : Reg) : (s.jumpTo w).getV r = s.getV r := rfl
@[simp] theorem State.getV_setI (s : State) (w : Word) (r : Reg) : (s.setI w).getV r = s.getV r := rfl
@[simp] theorem State.getV_poke (s : State) (a : Nat) (b : Byte) (r : Reg) : (s.poke a b).getV r = s.getV r := rfl
@[simp] theorem State.getV_pokeRun (s : State) (a : Nat) (bs : List Byte) (r : Reg) : (s.pokeRun a bs).getV r = s.getV r := rfl
@[simp] theorem State.getV_skipIf (s : State) (c : Bool) (r : Reg) : (s.skipIf c).getV r = s.getV r := by
  cases c <;> rfl

/-! ## Reading a byte -/

/-- Reading a byte depends on the memory and the parameters alone. -/
theorem State.peek_congr {s t : State} (hm : t.mem = s.mem) (hc : t.cfg = s.cfg) (a : Nat) :
    t.peek a = s.peek a := by
  simp only [State.peek, hm, hc]

@[simp] theorem State.peek_setV (s : State) (r : Reg) (b : Byte) (a : Nat) : (s.setV r b).peek a = s.peek a := rfl
@[simp] theorem State.peek_setVWithFlag (s : State) (x : Reg) (b : Byte) (f : Bool) (a : Nat) : (s.setVWithFlag x b f).peek a = s.peek a := rfl
@[simp] theorem State.peek_randomAnd (s : State) (x : Reg) (nn b : Byte) (a : Nat) : (s.randomAnd x nn b).peek a = s.peek a := rfl
@[simp] theorem State.peek_advance (s : State) (a : Nat) : s.advance.peek a = s.peek a := rfl
@[simp] theorem State.peek_jumpTo (s : State) (w : Word) (a : Nat) : (s.jumpTo w).peek a = s.peek a := rfl
@[simp] theorem State.peek_setI (s : State) (w : Word) (a : Nat) : (s.setI w).peek a = s.peek a := rfl
@[simp] theorem State.peek_skipIf (s : State) (c : Bool) (a : Nat) : (s.skipIf c).peek a = s.peek a := by
  cases c <;> rfl

@[simp] theorem State.advance_effAddr (s : State) (k : Nat) : s.advance.effAddr k = s.effAddr k := rfl

/-- During a body the program counter is two past the instruction (`30_encoding.md` R83). -/
@[simp] theorem State.instrAddr_advance (s : State) : s.advance.instrAddr = s.pc.toNat := by
  simp [State.instrAddr]

@[simp] theorem flagByte_true : flagByte true = 1 := rfl
@[simp] theorem flagByte_false : flagByte false = 0 := rfl

end Sys2Proof.Machine
end

