-- ==== Sys2Proof/Laws/Memory.lean ====
section
/-! SUPPORT. Memory: reading after writing, one byte and a run of bytes, and that every operation
keeps the canonical form. None needs the form as a premise to read back what was written. -/

namespace Sys2Proof.Machine

variable {cfg : Config} {m : Memory} {a c : Nat} {b : Byte}

@[simp] theorem Memory.read_nil : Memory.read cfg [] a = resetByte cfg a := rfl

theorem Memory.read_erase :
    (m.erase a).read cfg c = if c = a then resetByte cfg c else m.read cfg c := by
  induction m with
  | nil => simp [Memory.erase]
  | cons cell rest ih =>
    obtain ⟨k, d⟩ := cell
    by_cases hk : a = k
    · subst hk
      rw [Memory.erase, if_pos rfl, ih]
      by_cases hc : c = a <;> simp [Memory.read, hc]
    · by_cases hc : c = k
      · subst hc; simp [Memory.erase, Memory.read, hk, Ne.symm hk]
      · simp [Memory.erase, Memory.read, hk, hc, ih]

theorem Memory.read_insert (hm : ∀ cell ∈ m, cell.1 ≠ a) :
    (m.insert a b).read cfg c = if c = a then b else m.read cfg c := by
  induction m with
  | nil => by_cases hc : c = a <;> simp [Memory.insert, Memory.read, hc]
  | cons cell rest ih =>
    obtain ⟨k, d⟩ := cell
    have hk : k ≠ a := hm (k, d) (by simp)
    have ih := ih fun cell hc => hm cell (by simp [hc])
    by_cases hlt : a < k
    · simp [Memory.insert, Memory.read, hlt]
    · by_cases hc : c = k
      · subst hc; simp [Memory.insert, Memory.read, hlt, hk]
      · simp [Memory.insert, Memory.read, hlt, hc, ih]

theorem Memory.erase_keys : ∀ cell ∈ m.erase a, cell.1 ≠ a := by
  induction m with
  | nil => simp [Memory.erase]
  | cons cell rest ih =>
    obtain ⟨k, d⟩ := cell
    by_cases hk : a = k
    · intro cell hc
      rw [Memory.erase, if_pos hk] at hc
      exact ih cell hc
    · intro cell hc
      simp only [Memory.erase, hk, if_false, List.mem_cons] at hc
      obtain rfl | hc := hc
      · exact Ne.symm hk
      · exact ih cell hc

/-- Reading after a write: the written byte at the written address, the old byte elsewhere. -/
theorem Memory.read_write :
    (m.write cfg a b).read cfg c = if c = a then b else m.read cfg c := by
  unfold Memory.write
  split
  · rename_i h
    rw [Memory.read_erase]
    split
    · rename_i hc; rw [hc, h]
    · rfl
  · rw [Memory.read_insert Memory.erase_keys, Memory.read_erase]
    by_cases hc : c = a <;> simp [hc]

/-- Reading after a run of writes: the run's byte inside it, the old byte outside it. -/
theorem Memory.read_writeRun (bs : List Byte) (m : Memory) (a : Nat) :
    (m.writeRun cfg a bs).read cfg c =
      if h : a ≤ c ∧ c < a + bs.length then bs[c - a]'(by omega) else m.read cfg c := by
  induction bs generalizing m a with
  | nil => simp [Memory.writeRun, show ¬(a ≤ c ∧ c < a) by omega]
  | cons b rest ih =>
    rw [Memory.writeRun, ih]
    by_cases hc : c = a
    · subst hc
      simp [Memory.read_write]
    · by_cases hin : a ≤ c ∧ c < a + (b :: rest).length
      · have h1 : a + 1 ≤ c ∧ c < a + 1 + rest.length := by
          simp only [List.length_cons] at hin; omega
        rw [dif_pos h1, dif_pos hin]
        have : c - a = (c - (a + 1)) + 1 := by omega
        simp [this]
      · have h1 : ¬(a + 1 ≤ c ∧ c < a + 1 + rest.length) := by
          simp only [List.length_cons] at hin; omega
        rw [dif_neg h1, dif_neg hin, Memory.read_write, if_neg hc]

/-! ## A state's memory -/

theorem State.peek_poke (s : State) (a : Nat) (b : Byte) (c : Nat) :
    (s.poke a b).peek c = if c = a then b else s.peek c := Memory.read_write

theorem State.peek_pokeRun (s : State) (a : Nat) (bs : List Byte) (c : Nat) :
    (s.pokeRun a bs).peek c =
      if h : a ≤ c ∧ c < a + bs.length then bs[c - a]'(by omega) else s.peek c :=
  Memory.read_writeRun bs s.mem a

/-- A byte of the run just written. -/
theorem State.peek_pokeRun_at (s : State) (a : Nat) (bs : List Byte) {k : Nat}
    (h : k < bs.length) : (s.pokeRun a bs).peek (a + k) = bs[k] := by
  rw [State.peek_pokeRun, dif_pos (by omega)]
  simp

/-- A byte outside the run just written. -/
theorem State.peek_pokeRun_outside (s : State) (a : Nat) (bs : List Byte) {c : Nat}
    (h : c < a ∨ a + bs.length ≤ c) : (s.pokeRun a bs).peek c = s.peek c := by
  rw [State.peek_pokeRun, dif_neg (by omega)]

/-- After a reset every byte reads as its reset contents. -/
@[simp] theorem State.peek_resetWith (cfg : Config) (d a : Nat) :
    (State.resetWith cfg d).peek a = resetByte cfg a := rfl

/-! ## The canonical form -/

theorem Memory.wfFrom_mono {lo lo' : Nat} (h : lo' ≤ lo) :
    m.wfFrom cfg lo = true → m.wfFrom cfg lo' = true := by
  cases m with
  | nil => simp [Memory.wfFrom]
  | cons cell rest =>
    obtain ⟨k, d⟩ := cell
    simp only [Memory.wfFrom, Bool.and_eq_true, decide_eq_true_eq]
    rintro ⟨⟨⟨h1, h2⟩, h3⟩, h4⟩
    exact ⟨⟨⟨by omega, h2⟩, h3⟩, h4⟩

theorem Memory.wfFrom_erase {lo : Nat} (h : m.wfFrom cfg lo = true) :
    (m.erase a).wfFrom cfg lo = true := by
  induction m generalizing lo with
  | nil => exact h
  | cons cell rest ih =>
    obtain ⟨k, d⟩ := cell
    simp only [Memory.wfFrom, Bool.and_eq_true, decide_eq_true_eq] at h
    obtain ⟨⟨⟨h1, h2⟩, h3⟩, h4⟩ := h
    by_cases hk : a = k
    · simp only [Memory.erase, hk, if_true]
      exact hk ▸ Memory.wfFrom_mono (by omega) (ih h4)
    · simp [Memory.erase, hk, Memory.wfFrom, h1, h2, h3, ih h4]

theorem Memory.wfFrom_insert {lo : Nat} (h : m.wfFrom cfg lo = true)
    (hm : ∀ cell ∈ m, cell.1 ≠ a) (hlo : lo ≤ a) (ha : a < memSize) (hb : b ≠ resetByte cfg a) :
    (m.insert a b).wfFrom cfg lo = true := by
  induction m generalizing lo with
  | nil => simp [Memory.insert, Memory.wfFrom, hlo, ha, hb]
  | cons cell rest ih =>
    obtain ⟨k, d⟩ := cell
    have hk : k ≠ a := hm (k, d) (by simp)
    simp only [Memory.wfFrom, Bool.and_eq_true, decide_eq_true_eq] at h
    obtain ⟨⟨⟨h1, h2⟩, h3⟩, h4⟩ := h
    by_cases hlt : a < k
    · simp [Memory.insert, hlt, Memory.wfFrom, hlo, ha, hb, h2, h3, h4, show a + 1 ≤ k by omega]
    · have := ih h4 (fun cell hc => hm cell (by simp [hc])) (by omega)
      simp [Memory.insert, hlt, Memory.wfFrom, h1, h2, h3, this]

/-- A write inside memory keeps the canonical form. -/
theorem Memory.wf_write (h : m.wf cfg = true) (ha : a < memSize) :
    (m.write cfg a b).wf cfg = true := by
  unfold Memory.write Memory.wf at *
  split
  · exact Memory.wfFrom_erase h
  · rename_i hb
    exact Memory.wfFrom_insert (Memory.wfFrom_erase h) Memory.erase_keys (by omega) ha hb

/-- A run of writes inside memory keeps the canonical form. -/
theorem Memory.wf_writeRun (bs : List Byte) {m : Memory} {a : Nat} (h : m.wf cfg = true)
    (ha : a + bs.length ≤ memSize) : (m.writeRun cfg a bs).wf cfg = true := by
  induction bs generalizing m a with
  | nil => exact h
  | cons b rest ih =>
    simp only [List.length_cons] at ha
    exact ih (Memory.wf_write h (by omega)) (by omega)

/-- Reset memory lists nothing, so it has the canonical form. -/
@[simp] theorem Memory.wf_nil : Memory.wf cfg [] = true := rfl

end Sys2Proof.Machine
end

