-- ==== Sys2Proof/Laws/Ops.lean ====
section
/-! SUPPORT. What each shared operation can do, said once: the skip, the return stack, the checked
range of accesses, the register load. -/

namespace Sys2Proof.Machine

/-! ## The return stack -/

/-- A push succeeds below 16 entries and writes the next free slot. -/
theorem State.push_eq_some {s t : State} {w : Word} (h : s.push w = some t) :
    ∃ hlt : s.sp.val < 16,
      t = { s with stack := s.stack.set s.sp.val w, sp := ⟨s.sp.val + 1, by omega⟩ } := by
  unfold State.push at h
  split at h
  · rename_i hlt; exact ⟨hlt, (Option.some.inj h).symm⟩
  · cases h

theorem State.push_eq_none {s : State} {w : Word} : s.push w = none ↔ s.sp = 16 := by
  unfold State.push
  split <;> simp [Fin.ext_iff] <;> omega

/-- A pop succeeds above 0 entries, gives the topmost slot and keeps it. -/
theorem State.pop_eq_some {s t : State} {w : Word} (h : s.pop = some (w, t)) :
    ∃ hlt : s.sp.val - 1 < 16, 0 < s.sp.val ∧ w = s.stack[s.sp.val - 1] ∧
      t = { s with sp := ⟨s.sp.val - 1, by omega⟩ } := by
  unfold State.pop at h
  split at h
  · rename_i hpos
    have := s.sp.isLt
    simp only [Option.some.injEq, Prod.mk.injEq] at h
    exact ⟨by omega, hpos, h.1.symm, h.2.symm⟩
  · cases h

theorem State.pop_eq_none {s : State} : s.pop = none ↔ s.sp = 0 := by
  have h0 : s.sp = 0 ↔ s.sp.val = 0 := Fin.ext_iff
  unfold State.pop
  split
  · simp only [reduceCtorEq, false_iff]; omega
  · simp only [true_iff]; omega

/-! ## Checked ranges -/

variable {check : Nat → Option (Nat → State → Fault)} {base n a : Nat} {s done : State}

theorem firstError_eq_none :
    firstError check base n = none ↔ ∀ k, k < n → check (base + k) = none := by
  induction n with
  | zero => simp [firstError]
  | succ n ih =>
    unfold firstError
    constructor
    · intro h k hk
      split at h
      · cases h
      · rename_i hn
        split at h
        · cases h
        · rename_i hc
          obtain hk | rfl := Nat.lt_succ_iff_lt_or_eq.mp hk
          · exact ih.mp hn k hk
          · exact hc
    · intro h
      rw [ih.mpr fun k hk => h k (by omega), h n (by omega)]

/-- The error reported is the one of the first failing address. -/
theorem firstError_eq_some {e : Nat → State → Fault} :
    firstError check base n = some (e, a) ↔
      ∃ k, k < n ∧ a = base + k ∧ check a = some e ∧ ∀ j, j < k → check (base + j) = none := by
  induction n generalizing e a with
  | zero => simp [firstError]
  | succ n ih =>
    unfold firstError
    cases hn : firstError check base n with
    | some p =>
      obtain ⟨e', a'⟩ := p
      obtain ⟨k', hk', ha', hc', hj'⟩ := (ih.mp hn)
      simp only [Option.some.injEq, Prod.mk.injEq]
      constructor
      · rintro ⟨rfl, rfl⟩
        exact ⟨k', by omega, ha', hc', hj'⟩
      · rintro ⟨k, hk, rfl, hc, hj⟩
        have : k = k' := by
          rcases Nat.lt_trichotomy k k' with h | h | h
          · rw [hj' k h] at hc; cases hc
          · exact h
          · rw [ha', hj k' h] at hc'; cases hc'
        subst this
        rw [ha'] at hc' ⊢
        rw [hc] at hc'
        exact ⟨(Option.some.inj hc').symm, rfl⟩
    | none =>
      have hall := firstError_eq_none.mp hn
      constructor
      · intro h
        cases hc : check (base + n) with
        | none => simp [hc] at h
        | some e' =>
          simp only [hc, Option.some.injEq, Prod.mk.injEq] at h
          obtain ⟨rfl, rfl⟩ := h
          exact ⟨n, by omega, rfl, hc, hall⟩
      · rintro ⟨k, hk, rfl, hc, hj⟩
        obtain hk | rfl := Nat.lt_succ_iff_lt_or_eq.mp hk
        · rw [hall k hk] at hc; cases hc
        · simp [hc]

/-- A guarded instruction completes exactly when no address of its range fails. -/
theorem guarded_eq_next {t : State} :
    guarded check base n s done = .next t ↔
      (∀ k, k < n → check (base + k) = none) ∧ t = done := by
  unfold guarded
  cases h : firstError check base n with
  | none =>
    simp only [Host.Outcome.next.injEq]
    exact ⟨fun hd => ⟨firstError_eq_none.mp h, hd.symm⟩, fun hd => hd.2.symm⟩
  | some p =>
    obtain ⟨e, a⟩ := p
    obtain ⟨k, hk, rfl, hc, -⟩ := firstError_eq_some.mp h
    simp only [raise, reduceCtorEq, false_iff, not_and]
    intro hall
    rw [hall k hk] at hc; cases hc

/-- A guarded instruction that does not complete raises the error of its first failing address, and
writes nothing. -/
theorem guarded_eq_fault {f : Fault} :
    guarded check base n s done = .fault f ↔
      ∃ k e, k < n ∧ check (base + k) = some e ∧ (∀ j, j < k → check (base + j) = none) ∧
        f = e (base + k) s := by
  unfold guarded
  cases h : firstError check base n with
  | none =>
    simp only [reduceCtorEq, false_iff, not_exists, not_and]
    intro k e hk hc
    rw [firstError_eq_none.mp h k hk] at hc; cases hc
  | some p =>
    obtain ⟨e, a⟩ := p
    obtain ⟨k, hk, rfl, hc, hj⟩ := firstError_eq_some.mp h
    simp only [raise, Host.Outcome.fault.injEq]
    constructor
    · rintro rfl; exact ⟨k, e, hk, hc, hj, rfl⟩
    · rintro ⟨k', e', hk', hc', hj', rfl⟩
      have : firstError check base n = some (e', base + k') :=
        firstError_eq_some.mpr ⟨k', hk', rfl, hc', hj'⟩
      rw [h, Option.some.injEq, Prod.mk.injEq] at this
      rw [this.1, this.2]

/-- A guarded instruction is never refused. -/
theorem guarded_ne_refused {r : Refusal} : guarded check base n s done ≠ .refused r := by
  unfold guarded raise
  split <;> simp

theorem readError_eq_none : readError a = none ↔ a ≤ 0xFFF := by
  unfold readError; split <;> simp <;> omega

theorem readError_eq_some {e : Nat → State → Fault} :
    readError a = some e ↔ 0xFFF < a ∧ e = .memoryOutOfRange := by
  unfold readError; split <;> simp [*, eq_comm]

theorem writeError_eq_none {cfg : Config} :
    writeError cfg a = none ↔ a ≤ 0xFFF ∧ (cfg.protectLow = true → 0x200 ≤ a) := by
  unfold writeError programStart
  split
  · simp; omega
  · split
    · cases cfg.protectLow <;> simp <;> omega
    · simp; omega

theorem writeError_eq_some {cfg : Config} {e : Nat → State → Fault} :
    writeError cfg a = some e ↔
      (0xFFF < a ∧ e = .memoryOutOfRange) ∨
        (a < 0x200 ∧ cfg.protectLow = true ∧ e = .protectedWrite) := by
  unfold writeError programStart
  by_cases h1 : 0xFFF < a
  · have h2 : ¬a < 0x200 := by omega
    simp only [h1, h2, if_true, Option.some.injEq, true_and, false_and, or_false]
    exact eq_comm
  · by_cases h2 : a < 0x200
    · cases h : cfg.protectLow <;> simp [h1, h2, eq_comm]
    · simp [h1, h2]

/-! ## The register load -/

/-- Loading registers writes the register file and nothing else. -/
theorem State.loadV_frame (s : State) (count : Nat) : s.loadV count = { s with v := (s.loadV count).v } := by
  induction count with
  | zero => rfl
  | succ k ih => simp only [State.loadV]; rw [ih]

/-- Register `k` after a load of the first `count`. -/
theorem State.getV_loadV (s : State) (count : Nat) (r : Reg) :
    (s.loadV count).getV r = if r.val < count then s.peek (s.effAddr r.val) else s.getV r := by
  induction count with
  | zero => simp [State.loadV]
  | succ k ih =>
    simp only [State.loadV, State.getV, Vector.getElem_setIfInBounds]
    simp only [State.getV] at ih
    by_cases hk : k = r.val
    · simp [hk]
    · rw [if_neg hk, ih]
      have : r.val < k + 1 ↔ r.val < k := by omega
      simp [this]

/-! ## Operand lists -/

@[simp] theorem bcdDigits_length (b : Byte) : (bcdDigits b).length = 3 := rfl

@[simp] theorem State.regsUpTo_length (s : State) (x : Reg) : (s.regsUpTo x).length = x.val + 1 := by
  have := x.isLt
  simp [State.regsUpTo]

theorem State.regsUpTo_getElem (s : State) (x r : Reg) (h : r.val < (s.regsUpTo x).length) :
    (s.regsUpTo x)[r.val] = s.getV r := by
  simp [State.regsUpTo, State.getV]

end Sys2Proof.Machine
end

