-- ==== Sys2Proof/Laws/Display.lean ====
section
/-! SUPPORT. What drawing does to the pixels and to the collision, from one bit to a whole sprite
(`43_display.md` R191): one sprite touches no pixel twice, so the order of its bits does not
matter. -/

namespace Sys2Proof.Machine

@[simp] theorem Screen.pixel_blank (px : Fin 64) (py : Fin 32) : Screen.blank.pixel px py = false := by
  simp [Screen.blank, Screen.pixel]

theorem toggleColumn_getElem (row : Vector Bool 64) (px qx : Fin 64) :
    (toggleColumn row px)[qx.val] = if qx = px then !row[qx.val] else row[qx.val] := by
  have h : (toggleColumn row px)[qx.val] = (row.toList.modify px.val (!·))[qx.val]'(by simp) := rfl
  rw [h, List.getElem_modify]
  by_cases hq : qx = px
  · subst hq; simp
  · simp [hq, Fin.val_ne_iff.mpr (Ne.symm hq)]

/-- Toggling changes one pixel. -/
theorem Screen.pixel_toggle (d : Screen) (px qx : Fin 64) (py qy : Fin 32) :
    (d.toggle px py).pixel qx qy = if qx = px ∧ qy = py then !d.pixel qx qy else d.pixel qx qy := by
  have h : (d.toggle px py).pixel qx qy =
      ((d.toList.modify py.val (toggleColumn · px))[qy.val]'(by simp))[qx.val] := rfl
  have h2 := List.getElem_modify (toggleColumn · px) py.val d.toList qy.val (by simp)
  rw [h, h2]
  by_cases hy : qy = py
  · subst hy
    simp only [if_true, and_true]
    exact toggleColumn_getElem _ _ _
  · simp [hy, Fin.val_ne_iff.mpr (Ne.symm hy), Screen.pixel]

/-- The pixel of column `c` of row `r`. -/
def spriteX (x0 c : Nat) : Fin 64 := Fin.ofNat 64 (x0 + c)
def spriteY (y0 r : Nat) : Fin 32 := Fin.ofNat 32 (y0 + r)

theorem spriteX_inj {x0 c c' : Nat} (h : c < 64) (h' : c' < 64) (he : spriteX x0 c = spriteX x0 c') :
    c = c' := by
  have := congrArg Fin.val he
  simp only [spriteX, Fin.ofNat] at this
  omega

theorem spriteY_inj {y0 r r' : Nat} (h : r < 32) (h' : r' < 32) (he : spriteY y0 r = spriteY y0 r') :
    r = r' := by
  have := congrArg Fin.val he
  simp only [spriteY, Fin.ofNat] at this
  omega

variable {x0 y0 r : Nat} {b : Byte} {d : Screen} {col : Bool}

theorem drawBit_false (c : Nat) : drawBit x0 y0 r c false (d, col) = (d, col) := rfl

theorem drawBit_true (c : Nat) :
    drawBit x0 y0 r c true (d, col) =
      (d.toggle (spriteX x0 c) (spriteY y0 r), col || d.pixel (spriteX x0 c) (spriteY y0 r)) := rfl

/-- The bits of a row below column `count` that lie on the pixel. -/
def RowSets (x0 y0 r : Nat) (b : Byte) (count : Nat) (px : Fin 64) (py : Fin 32) : Prop :=
  ∃ c, c < count ∧ b.getLsbD (7 - c) = true ∧ px = spriteX x0 c ∧ py = spriteY y0 r

theorem RowSets.succ {count : Nat} {px : Fin 64} {py : Fin 32} :
    RowSets x0 y0 r b (count + 1) px py ↔ RowSets x0 y0 r b count px py ∨
      (b.getLsbD (7 - count) = true ∧ px = spriteX x0 count ∧ py = spriteY y0 r) := by
  constructor
  · rintro ⟨c, hc, h⟩
    obtain hc | rfl := Nat.lt_succ_iff_lt_or_eq.mp hc
    · exact .inl ⟨c, hc, h⟩
    · exact .inr h
  · rintro (⟨c, hc, h⟩ | h)
    · exact ⟨c, by omega, h⟩
    · exact ⟨count, by omega, h⟩

/-- Drawing a row toggles exactly the pixels its set bits lie on, and sets the collision exactly when
one of them was on. -/
theorem drawRow_spec {count : Nat} (hc : count ≤ 8) :
    (∀ px py, (RowSets x0 y0 r b count px py →
        (drawRow x0 y0 r b count (d, col)).1.pixel px py = !d.pixel px py) ∧
      (¬RowSets x0 y0 r b count px py →
        (drawRow x0 y0 r b count (d, col)).1.pixel px py = d.pixel px py)) ∧
    ((drawRow x0 y0 r b count (d, col)).2 = true ↔
      col = true ∨ ∃ px py, RowSets x0 y0 r b count px py ∧ d.pixel px py = true) := by
  induction count with
  | zero => simp [drawRow, RowSets]
  | succ count ih =>
    obtain ⟨ihp, ihc⟩ := ih (by omega)
    -- no earlier column lies on this column's pixel
    have hfresh : ¬RowSets x0 y0 r b count (spriteX x0 count) (spriteY y0 r) := by
      rintro ⟨c, hlt, -, hx, -⟩
      have := spriteX_inj (by omega) (by omega) hx
      omega
    rw [drawRow]
    generalize hdr : drawRow x0 y0 r b count (d, col) = dr at ihp ihc
    obtain ⟨d1, c1⟩ := dr
    cases hbit : b.getLsbD (7 - count) with
    | false =>
      rw [drawBit_false]
      simp only [RowSets.succ, hbit, Bool.false_eq_true, false_and, or_false]
      exact ⟨ihp, ihc⟩
    | true =>
      rw [drawBit_true]
      simp only [RowSets.succ, hbit, true_and]
      have hold := (ihp _ _).2 hfresh
      refine ⟨fun px py => ?_, ?_⟩
      · rw [Screen.pixel_toggle]
        by_cases hp : px = spriteX x0 count ∧ py = spriteY y0 r
        · obtain ⟨rfl, rfl⟩ := hp
          simp [hold]
        · simp only [hp, or_false, if_false]
          exact ihp px py
      · rw [Bool.or_eq_true, ihc, hold]
        constructor
        · rintro ((h | ⟨px, py, h, ho⟩) | h)
          · exact .inl h
          · exact .inr ⟨px, py, .inl h, ho⟩
          · exact .inr ⟨_, _, .inr ⟨rfl, rfl⟩, h⟩
        · rintro (h | ⟨px, py, h | ⟨rfl, rfl⟩, ho⟩)
          · exact .inl (.inl h)
          · exact .inl (.inr ⟨px, py, h, ho⟩)
          · exact .inr ho

theorem SpriteSets.succ {rows : Nat → Byte} {n : Nat} {px : Fin 64} {py : Fin 32} :
    SpriteSets x0 y0 rows (n + 1) px py ↔
      SpriteSets x0 y0 rows n px py ∨ RowSets x0 y0 n (rows n) 8 px py := by
  simp only [RowSets, Fin.ext_iff, spriteX, spriteY, Fin.ofNat]
  constructor
  · rintro ⟨r, c, hr, hc, h⟩
    obtain hr | rfl := Nat.lt_succ_iff_lt_or_eq.mp hr
    · exact .inl ⟨r, c, hr, hc, h⟩
    · exact .inr ⟨c, hc, h⟩
  · rintro (⟨r, c, hr, hc, h⟩ | ⟨c, hc, h⟩)
    · exact ⟨r, c, by omega, hc, h⟩
    · exact ⟨n, c, by omega, hc, h⟩

/-- Drawing a sprite of at most 32 rows toggles exactly the pixels its set bits lie on, and sets the
collision exactly when one of them was on before. -/
theorem drawRows_spec {rows : Nat → Byte} {n : Nat} (hn : n ≤ 32) :
    (∀ px py, (SpriteSets x0 y0 rows n px py →
        (drawRows x0 y0 rows n (d, col)).1.pixel px py = !d.pixel px py) ∧
      (¬SpriteSets x0 y0 rows n px py →
        (drawRows x0 y0 rows n (d, col)).1.pixel px py = d.pixel px py)) ∧
    ((drawRows x0 y0 rows n (d, col)).2 = true ↔
      col = true ∨ ∃ px py, SpriteSets x0 y0 rows n px py ∧ d.pixel px py = true) := by
  induction n with
  | zero => simp [drawRows, SpriteSets]
  | succ n ih =>
    obtain ⟨ihp, ihc⟩ := ih (by omega)
    -- no earlier row lies on this row's pixels
    have hfresh : ∀ px py, RowSets x0 y0 n (rows n) 8 px py → ¬SpriteSets x0 y0 rows n px py := by
      rintro px py ⟨c, hc, -, -, hy⟩ ⟨r, c', hr, hc', -, -, hy'⟩
      have : spriteY y0 r = spriteY y0 n := by
        rw [← hy]; exact (Fin.ext (by simpa [spriteY, Fin.ofNat] using hy')).symm
      have := spriteY_inj (by omega) (by omega) this
      omega
    rw [drawRows]
    generalize drawRows x0 y0 rows n (d, col) = dr at ihp ihc
    obtain ⟨d1, c1⟩ := dr
    obtain ⟨hp, hcol⟩ := drawRow_spec (x0 := x0) (y0 := y0) (r := n) (b := rows n) (d := d1)
      (col := c1) (count := 8) (by omega)
    refine ⟨fun px py => ?_, ?_⟩
    · rw [SpriteSets.succ]
      by_cases hrow : RowSets x0 y0 n (rows n) 8 px py
      · have hs := hfresh px py hrow
        simp [hrow, hs, (hp px py).1 hrow, (ihp px py).2 hs]
      · simp only [hrow, or_false, (hp px py).2 hrow]
        exact ihp px py
    · rw [hcol, ihc]
      constructor
      · rintro ((h | ⟨px, py, h, ho⟩) | ⟨px, py, h, ho⟩)
        · exact .inl h
        · exact .inr ⟨px, py, SpriteSets.succ.mpr (.inl h), ho⟩
        · exact .inr ⟨px, py, SpriteSets.succ.mpr (.inr h),
            by rwa [(ihp px py).2 (hfresh px py h)] at ho⟩
      · rintro (h | ⟨px, py, h, ho⟩)
        · exact .inl (.inl h)
        · obtain h | h := SpriteSets.succ.mp h
          · exact .inl (.inr ⟨px, py, h, ho⟩)
          · exact .inr ⟨px, py, h, by rwa [(ihp px py).2 (hfresh px py h)]⟩

/-! ## The state after a draw -/

/-- What a draw writes, all of it: the screen, the redraw flag and VF. -/
theorem State.drawn_eq (s : State) (x y : Reg) (n : Nibble) :
    s.drawn x y n =
      ({ s with
          disp := (drawRows (s.getV x).toNat (s.getV y).toNat (fun r => s.peek (s.effAddr r))
            n.toNat (s.disp, false)).1
          redrawPending := true } : State).setV VF
        (flagByte (drawRows (s.getV x).toNat (s.getV y).toNat (fun r => s.peek (s.effAddr r))
            n.toNat (s.disp, false)).2) := rfl

end Sys2Proof.Machine
end

