-- ==== Sys2Proof/Laws/Exec.lean ====
section
/-! SUPPORT. The meanings with more than one outcome, inverted: what holds when one answers a next
state, and when it raises an error. The other meanings answer one next state on every path. -/

namespace Sys2Proof.Machine

variable {s t : State} {x y : Reg} {n : Nibble} {nnn : Addr12}

theorem execRet_next (h : execRet s = .next t) :
    ∃ hlt : s.sp.val - 1 < 16, 0 < s.sp.val ∧
      t = { s with pc := s.stack[s.sp.val - 1], sp := ⟨s.sp.val - 1, by omega⟩ } := by
  unfold execRet at h
  split at h
  · rename_i w u hp
    obtain ⟨hlt, hpos, rfl, rfl⟩ := State.pop_eq_some hp
    exact ⟨hlt, hpos, (Host.Outcome.next.inj h).symm⟩
  · cases h

/-- RET completes on a stack that holds an entry. -/
theorem execRet_of_entry (h : 0 < s.sp.val) (hlt : s.sp.val - 1 < 16) :
    execRet s = .next { s with pc := s.stack[s.sp.val - 1], sp := ⟨s.sp.val - 1, by omega⟩ } := by
  unfold execRet State.pop
  rw [dif_pos h]; rfl

theorem execRet_fault {f : Fault} :
    execRet s = .fault f ↔ s.sp = 0 ∧ f = .stackUnderflow s.instrAddr s := by
  unfold execRet
  split
  · rename_i w u hp
    have : s.sp ≠ 0 := fun h0 => by rw [State.pop_eq_none.mpr h0] at hp; cases hp
    simp [this]
  · rename_i hp
    simp [raise, State.pop_eq_none.mp hp, eq_comm]

theorem execCall_next (h : execCall nnn s = .next t) :
    ∃ hlt : s.sp.val < 16,
      t = { s with
        stack := s.stack.set s.sp.val s.pc, sp := ⟨s.sp.val + 1, by omega⟩, pc := zext16 nnn } := by
  unfold execCall at h
  split at h
  · rename_i u hp
    obtain ⟨hlt, rfl⟩ := State.push_eq_some hp
    exact ⟨hlt, (Host.Outcome.next.inj h).symm⟩
  · cases h

/-- CALL completes on a stack with room. -/
theorem execCall_of_room (h : s.sp.val < 16) :
    execCall nnn s = .next { s with
      stack := s.stack.set s.sp.val s.pc, sp := ⟨s.sp.val + 1, by omega⟩, pc := zext16 nnn } := by
  unfold execCall State.push
  rw [dif_pos h]; rfl

theorem execCall_fault {f : Fault} :
    execCall nnn s = .fault f ↔ s.sp = 16 ∧ f = .stackOverflow s.instrAddr s := by
  unfold execCall
  split
  · rename_i u hp
    have : s.sp ≠ 16 := fun h0 => by rw [State.push_eq_none.mpr h0] at hp; cases hp
    simp [this]
  · rename_i hp
    simp [raise, State.push_eq_none.mp hp, eq_comm]

theorem State.keyLevel_eq_none {k : Byte} : s.keyLevel k = none ↔ 15 < k.toNat := by
  unfold State.keyLevel; split <;> simp <;> omega

theorem State.keyLevel_eq_some {k : Byte} (h : k.toNat < 16) :
    s.keyLevel k = some s.keys[k.toNat] := by
  unfold State.keyLevel; rw [dif_pos h]

theorem execSkp_next (h : execSkp x s = .next t) :
    ∃ hlt : (s.getV x).toNat < 16, t = s.skipIf s.keys[(s.getV x).toNat] := by
  unfold execSkp State.keyLevel at h
  by_cases hlt : (s.getV x).toNat < 16
  · rw [dif_pos hlt] at h
    exact ⟨hlt, (Host.Outcome.next.inj h).symm⟩
  · rw [dif_neg hlt] at h; cases h

theorem execSkp_fault {f : Fault} :
    execSkp x s = .fault f ↔
      15 < (s.getV x).toNat ∧ f = .keyIndexOutOfRange (s.getV x).toNat s := by
  unfold execSkp
  split
  · rename_i p hp
    have : ¬15 < (s.getV x).toNat := fun h => by rw [State.keyLevel_eq_none.mpr h] at hp; cases hp
    simp [this]
  · rename_i hp
    simp [raise, State.keyLevel_eq_none.mp hp, eq_comm]

theorem execSknp_next (h : execSknp x s = .next t) :
    ∃ hlt : (s.getV x).toNat < 16, t = s.skipIf (!s.keys[(s.getV x).toNat]) := by
  unfold execSknp State.keyLevel at h
  by_cases hlt : (s.getV x).toNat < 16
  · rw [dif_pos hlt] at h
    exact ⟨hlt, (Host.Outcome.next.inj h).symm⟩
  · rw [dif_neg hlt] at h; cases h

theorem execSknp_fault {f : Fault} :
    execSknp x s = .fault f ↔
      15 < (s.getV x).toNat ∧ f = .keyIndexOutOfRange (s.getV x).toNat s := by
  unfold execSknp
  split
  · rename_i p hp
    have : ¬15 < (s.getV x).toNat := fun h => by rw [State.keyLevel_eq_none.mpr h] at hp; cases hp
    simp [this]
  · rename_i hp
    simp [raise, State.keyLevel_eq_none.mp hp, eq_comm]

theorem execLdB_next :
    execLdB x s = .next t ↔
      (∀ k, k < 3 → writeError s.cfg (s.effAddr 0 + k) = none) ∧
        t = s.pokeRun (s.effAddr 0) (bcdDigits (s.getV x)) := guarded_eq_next

theorem execStoreRegs_next :
    execStoreRegs x s = .next t ↔
      (∀ k, k < x.val + 1 → writeError s.cfg (s.effAddr 0 + k) = none) ∧
        t = s.pokeRun (s.effAddr 0) (s.regsUpTo x) := guarded_eq_next

theorem execLoadRegs_next :
    execLoadRegs x s = .next t ↔
      (∀ k, k < x.val + 1 → readError (s.effAddr 0 + k) = none) ∧ t = s.loadV (x.val + 1) :=
  guarded_eq_next

theorem execDrw_next :
    execDrw x y n s = .next t ↔
      (∀ k, k < n.toNat → readError (s.effAddr 0 + k) = none) ∧ t = s.drawn x y n :=
  guarded_eq_next

end Sys2Proof.Machine
end

