-- ==== Sys2Proof/Laws/Frames.lean ====
section
/-! SUPPORT. Frames: how to show one, and the frames of the shared operations. -/

namespace Sys2Proof.Machine

variable {s t : State} {w : Writes}

/-- A frame from its registers and one equation over the state, for a form that stores nothing. -/
theorem Frame.of_fields (hv : ∀ r : Reg, r ∉ w.regs → t.getV r = s.getV r)
    (h : t = { s with
      v := t.v
      i := if w.index then t.i else s.i
      pc := if w.pc then t.pc else s.pc
      stack := if w.stack then t.stack else s.stack
      sp := if w.stack then t.sp else s.sp
      dt := if w.dt then t.dt else s.dt
      st := if w.st then t.st else s.st
      disp := if w.screen then t.disp else s.disp
      redrawPending := if w.screen then t.redrawPending else s.redrawPending
      awaitingKey := if w.keyWait then t.awaitingKey else s.awaitingKey
      keyTarget := if w.keyWait then t.keyTarget else s.keyTarget
      draws := if w.draws then t.draws else s.draws }) : Frame w s t := by
  constructor
  · exact hv
  all_goals first
    | (intro hw; rw [h]; simp [hw])
    | (intro a _; rw [h]; rfl)
    | rw [h]

theorem State.pc_skipIf (s : State) (c : Bool) :
    (s.skipIf c).pc = if c then s.pc + 2 else s.pc := by cases c <;> rfl

/-- A skip writes the program counter alone. -/
theorem State.frame_skipIf (s : State) (c : Bool) : Frame { pc := true } s (s.skipIf c) := by
  cases c <;> exact Frame.of_fields (fun _ _ => rfl) rfl

/-- A run of stores writes its bytes alone. -/
theorem State.frame_pokeRun (s : State) (a : Nat) (bs : List Byte) :
    Frame { lo := a, len := bs.length } s (s.pokeRun a bs) := by
  constructor
  case bytes => intro c hc; exact State.peek_pokeRun_outside s a bs hc
  all_goals (intros; first | rfl | exact ⟨rfl, rfl⟩)

/-- A register load writes the first `count` registers alone. -/
theorem State.frame_loadV (s : State) (count : Nat) :
    Frame { regs := (List.finRange 16).filter (·.val < count) } s (s.loadV count) := by
  refine Frame.of_fields (fun r hr => ?_) (State.loadV_frame s count)
  rw [State.getV_loadV, if_neg (by simpa using hr)]

/-- A draw writes the screen, the redraw flag and VF alone. -/
theorem State.frame_drawn (s : State) (x y : Reg) (n : Nibble) :
    Frame { regs := [VF], screen := true } s (s.drawn x y n) := by
  rw [State.drawn_eq]
  refine Frame.of_fields (fun r hr => ?_) rfl
  rw [State.getV_setV_other _ _ (by simpa using hr)]
  rfl

end Sys2Proof.Machine
end

