-- ==== Sys2Proof/Laws/Step.lean ====
section
/-! SUPPORT. The step and the commands, inverted: every way a step can answer a next state, and every
way it can raise an error. -/

namespace Sys2Proof.Machine

variable {s t : State}

/-- The one rejection of a whole word is the illegal word's. -/
theorem decodeWord_rejected {strict : Bool} {w : Word} {e : DecodeError}
    (h : decodeWord strict w = .rejected e) : e = .unknownOpcode w := by
  unfold decodeWord decodeGroup0 decodeGroup8 decodeGroupE decodeGroupF at h
  split at h <;> (try split at h) <;>
    first
      | exact (acceptUnexamined_rejected h).1
      | exact (Decoded.rejected.inj h).symm
      | cases h

theorem fetchError_eq_none {pc : Word} :
    fetchError pc = none ↔ pc.getLsbD 0 = false ∧ 0x200 ≤ pc.toNat ∧ pc.toNat ≤ 0xFFE := by
  unfold fetchError programStart
  cases h : pc.getLsbD 0
  · by_cases h2 : pc.toNat < 0x200
    · simp [h2]
    · by_cases h3 : 0xFFF < pc.toNat + 1 <;> simp [h2, h3] <;> omega
  · simp

theorem getLsbD_zero_eq_true {pc : Word} : pc.getLsbD 0 = true ↔ pc.toNat % 2 = 1 := by
  simp [BitVec.getLsbD, Nat.testBit_zero]

/-- The fetch succeeds exactly when the program counter passes the checks. -/
theorem fetchOk_iff : FetchOk s ↔ fetchError s.pc = none := by
  have ho := getLsbD_zero_eq_true (pc := s.pc)
  rw [fetchError_eq_none]
  constructor
  · rintro ⟨he, h1, h2⟩
    exact ⟨by rw [← Bool.not_eq_true, ho]; omega, h1, by omega⟩
  · rintro ⟨hb, h1, h2⟩
    rw [← Bool.not_eq_true, ho] at hb
    exact ⟨by omega, h1, by omega⟩

/-- Which check of the program counter fails. -/
theorem fetchError_eq_some {pc : Word} {e : Nat → State → Fault} (h : fetchError pc = some e) :
    (e = .fetchMisaligned ∧ pc.toNat % 2 = 1) ∨
      (e = .fetchBelowProgramStart ∧ pc.toNat % 2 = 0 ∧ pc.toNat < 0x200) ∨
      (e = .memoryOutOfRange ∧ pc.toNat % 2 = 0 ∧ 0xFFF < pc.toNat + 1) := by
  have ho := getLsbD_zero_eq_true (pc := pc)
  unfold fetchError programStart at h
  split at h
  · exact .inl ⟨(Option.some.inj h).symm, ho.mp ‹_›⟩
  · have he : pc.toNat % 2 = 0 := by
      have : ¬pc.toNat % 2 = 1 := fun h1 => absurd (ho.mpr h1) ‹_›
      omega
    split at h
    · exact .inr (.inl ⟨(Option.some.inj h).symm, he, ‹_›⟩)
    · split at h
      · exact .inr (.inr ⟨(Option.some.inj h).symm, he, ‹_›⟩)
      · cases h

/-- Every way a step answers a next state: it waits for a key, or it runs the fetched
instruction. -/
theorem step_next (h : step s = .next t) :
    (s.awaitingKey = true ∧ t = s) ∨
      (s.awaitingKey = false ∧ fetchError s.pc = none ∧
        ∃ i, decodeWord s.cfg.strictDecode (s.fetchWord s.pc) = .accepted i ∧
          exec i s.advance = .next t) := by
  unfold step cycle runWord at h
  split at h
  · exact .inl ⟨‹_›, (Host.Outcome.next.inj h).symm⟩
  · split at h
    · cases h
    · split at h
      · exact .inr ⟨‹_›, ‹_›, _, ‹_›, h⟩
      · cases h

/-- Every way a step raises an error: the fetch's check, the illegal word, or the instruction. -/
theorem step_fault {f : Fault} (h : step s = .fault f) :
    s.awaitingKey = false ∧
      ((∃ e, fetchError s.pc = some e ∧ f = e s.pc.toNat s) ∨
        (fetchError s.pc = none ∧
          ((decodeWord s.cfg.strictDecode (s.fetchWord s.pc) =
              .rejected (.unknownOpcode (s.fetchWord s.pc)) ∧
              f = .unknownOpcode (s.fetchWord s.pc).toNat s.advance) ∨
            ∃ i, decodeWord s.cfg.strictDecode (s.fetchWord s.pc) = .accepted i ∧
              exec i s.advance = .fault f))) := by
  unfold step cycle runWord raise at h
  split at h
  · cases h
  · refine ⟨‹_›, ?_⟩
    split at h
    · exact .inl ⟨_, ‹_›, (Host.Outcome.fault.inj h).symm⟩
    · refine .inr ⟨‹_›, ?_⟩
      split at h
      · exact .inr ⟨_, ‹_›, h⟩
      · rename_i e he
        exact .inl ⟨decodeWord_rejected he ▸ he, (Host.Outcome.fault.inj h).symm⟩

/-! ## Placing a word where the next step fetches it -/

theorem fetchError_readyToFetch (s : State) : fetchError s.readyToFetch.pc = none := by
  unfold State.readyToFetch
  cases h : fetchError s.pc with
  | none => simpa using h
  | some e => simp; decide

@[simp] theorem State.withFetchWord_pc (s : State) (nbits w : Nat) :
    (s.withFetchWord nbits w).pc = s.readyToFetch.pc := rfl
@[simp] theorem State.withFetchWord_awaitingKey (s : State) (nbits w : Nat) :
    (s.withFetchWord nbits w).awaitingKey = false := rfl
@[simp] theorem State.withFetchWord_cfg (s : State) (nbits w : Nat) :
    (s.withFetchWord nbits w).cfg = s.cfg := rfl

theorem State.fetchWord_placeWord (s : State) (pc w : Word) : (s.placeWord pc w).fetchWord pc = w := by
  have h0 := State.peek_pokeRun_at s pc.toNat [highByte w, lowByte w] (k := 0) (by simp)
  have h1 := State.peek_pokeRun_at s pc.toNat [highByte w, lowByte w] (k := 1) (by simp)
  simp only [Nat.add_zero, List.getElem_cons_zero, List.getElem_cons_succ] at h0 h1
  simp only [State.fetchWord, State.placeWord, h0, h1, wordOfBytes_bytes]

/-- The very next step runs exactly the word placed. -/
theorem step_withFetchWord (s : State) (nbits w : Nat) :
    step (s.withFetchWord nbits w) = runWord (tableWord nbits w) (s.withFetchWord nbits w) := by
  have hf : (s.withFetchWord nbits w).fetchWord (s.withFetchWord nbits w).pc = tableWord nbits w :=
    State.fetchWord_placeWord s.readyToFetch s.readyToFetch.pc (tableWord nbits w)
  unfold step cycle
  simp only [State.withFetchWord_awaitingKey, hf]
  rw [State.withFetchWord_pc, fetchError_readyToFetch]

/-! ## Commands -/

theorem loadCommand_next {bytes : List Byte} :
    loadCommand bytes s = .next t ↔ bytes.length ≤ maxProgram ∧ t = s.pokeRun programStart bytes := by
  unfold loadCommand raise
  split
  · simp; omega
  · simp only [Host.Outcome.next.injEq]
    exact ⟨fun h => ⟨by omega, h.symm⟩, fun h => h.2.symm⟩

theorem setKeyCommand_outside {index : Int} {p : Bool} (h : index < 0 ∨ 15 < index) :
    setKeyCommand index p s = s := by
  unfold setKeyCommand
  rw [dif_neg (by omega)]

theorem setKeyCommand_inside (k : Reg) (p : Bool) :
    setKeyCommand k.val p s = resolveKeyWait k p { s with keys := s.keys.set k.val p } := by
  unfold setKeyCommand
  have := k.isLt
  rw [dif_pos (by omega)]
  simp

end Sys2Proof.Machine
end

