-- ==== Sys2Proof/Laws/Glyphs.lean ====
section
/-! SUPPORT. The glyph table: what its intactness says byte by byte, and that an instruction changes no
byte outside the range it stores. -/

namespace Sys2Proof.Machine

variable {s t : State} {i : Instr}

theorem State.glyphsIntact_iff :
    s.glyphsIntact = true ↔ ∀ a, a < 80 → s.peek a = resetByte s.cfg a := by
  simp [State.glyphsIntact, glyphBytes]

theorem meetsGlyphs_eq_false {lo len : Nat} :
    meetsGlyphs (lo, len) = false ↔ len = 0 ∨ 80 ≤ lo := by
  change (decide (0 < len) && decide (lo < 80)) = false ↔ _
  simp only [Bool.and_eq_false_iff, decide_eq_false_iff_not]
  omega

/-- An instruction that completes keeps the parameters, and every byte outside its stored range. -/
theorem exec_memory (h : exec i s = .next t) :
    t.cfg = s.cfg ∧ ∀ a, a < (storedRange i s).1 ∨ (storedRange i s).1 + (storedRange i s).2 ≤ a →
      t.peek a = s.peek a := by
  cases i <;> simp only [exec] at h
  case ret => obtain ⟨-, -, rfl⟩ := execRet_next h; exact ⟨rfl, fun _ _ => rfl⟩
  case call => obtain ⟨-, rfl⟩ := execCall_next h; exact ⟨rfl, fun _ _ => rfl⟩
  case skp =>
    obtain ⟨-, rfl⟩ := execSkp_next h
    exact ⟨(State.frame_skipIf _ _).cfg, fun _ _ => State.peek_skipIf _ _ _⟩
  case sknp =>
    obtain ⟨-, rfl⟩ := execSknp_next h
    exact ⟨(State.frame_skipIf _ _).cfg, fun _ _ => State.peek_skipIf _ _ _⟩
  case drw => obtain ⟨-, rfl⟩ := execDrw_next.mp h; exact ⟨rfl, fun _ _ => rfl⟩
  case ldB =>
    obtain ⟨-, rfl⟩ := execLdB_next.mp h
    exact ⟨rfl, fun a ha => State.peek_pokeRun_outside _ _ _ (by simpa [storedRange] using ha)⟩
  case storeRegs =>
    obtain ⟨-, rfl⟩ := execStoreRegs_next.mp h
    exact ⟨rfl, fun a ha => State.peek_pokeRun_outside _ _ _ (by simpa [storedRange] using ha)⟩
  case loadRegs =>
    obtain ⟨-, rfl⟩ := execLoadRegs_next.mp h
    rw [State.loadV_frame]; exact ⟨rfl, fun _ _ => rfl⟩
  all_goals obtain rfl := Host.Outcome.next.inj h
  case seImm => exact ⟨(State.frame_skipIf _ _).cfg, fun _ _ => State.peek_skipIf _ _ _⟩
  case sneImm => exact ⟨(State.frame_skipIf _ _).cfg, fun _ _ => State.peek_skipIf _ _ _⟩
  case seReg => exact ⟨(State.frame_skipIf _ _).cfg, fun _ _ => State.peek_skipIf _ _ _⟩
  case sneReg => exact ⟨(State.frame_skipIf _ _).cfg, fun _ _ => State.peek_skipIf _ _ _⟩
  all_goals exact ⟨rfl, fun _ _ => rfl⟩

@[simp] theorem storedRange_advance (i : Instr) (s : State) :
    storedRange i s.advance = storedRange i s := by
  cases i <;> rfl

/-- When the check flags a step: it runs an instruction whose stored range meets the table. -/
theorem stepStoresToGlyphs_eq_true :
    stepStoresToGlyphs s = true ↔ s.awaitingKey = false ∧ (∃ t, step s = .next t) ∧
      ∃ i, decodeWord s.cfg.strictDecode (s.fetchWord s.pc) = .accepted i ∧
        meetsGlyphs (storedRange i s) = true := by
  unfold stepStoresToGlyphs
  cases step s <;> cases s.awaitingKey <;>
    cases decodeWord s.cfg.strictDecode (s.fetchWord s.pc) <;> simp

end Sys2Proof.Machine
end

