-- ==== Sys2Proof/Laws/PerInstr.lean ====
section
/-! SUPPORT. The statements made per instruction: the encoder's word fits its row of
spec/opcode_table.json, `word AND mask = match`, the mask and match copied from the table. -/

namespace Sys2Proof

/-! ## What a mask keeps of a word -/

theorem and_groupMask (w : Word) : w &&& 0xF000#16 = wordAddr (fieldG w) 0 := by
  simp only [wordAddr, fieldG]
  ext i hi
  interval_cases i <;> simp <;> grind

theorem and_groupLiteralMask (w : Word) :
    w &&& 0xF0FF#16 = wordRegLit (fieldG w) 0 (fieldNN w) := by
  simp only [wordRegLit, fieldG, fieldNN, regBits]
  ext i hi
  interval_cases i <;> simp <;> grind

theorem and_groupNibbleMask (w : Word) :
    w &&& 0xF00F#16 = wordRegReg (fieldG w) 0 0 (fieldN w) := by
  simp only [wordRegReg, fieldG, fieldN, regBits]
  ext i hi
  interval_cases i <;> simp <;> grind

/-- The mask and the match of an instruction's row of spec/opcode_table.json (`STRICT_DECODE`
false). -/
def tableRow (i : Instr) : Word × Word :=
  match i with
  | .cls _ => (0xF0FF#16, 0x00E0#16)
  | .ret _ => (0xF0FF#16, 0x00EE#16)
  | .jp _ => (0xF000#16, 0x1000#16)
  | .call _ => (0xF000#16, 0x2000#16)
  | .seImm _ _ => (0xF000#16, 0x3000#16)
  | .sneImm _ _ => (0xF000#16, 0x4000#16)
  | .seReg _ _ _ => (0xF000#16, 0x5000#16)
  | .ldImm _ _ => (0xF000#16, 0x6000#16)
  | .addImm _ _ => (0xF000#16, 0x7000#16)
  | .ldReg _ _ => (0xF00F#16, 0x8000#16)
  | .orReg _ _ => (0xF00F#16, 0x8001#16)
  | .andReg _ _ => (0xF00F#16, 0x8002#16)
  | .xorReg _ _ => (0xF00F#16, 0x8003#16)
  | .addReg _ _ => (0xF00F#16, 0x8004#16)
  | .subReg _ _ => (0xF00F#16, 0x8005#16)
  | .shr _ _ => (0xF00F#16, 0x8006#16)
  | .subn _ _ => (0xF00F#16, 0x8007#16)
  | .shl _ _ => (0xF00F#16, 0x800E#16)
  | .sneReg _ _ _ => (0xF000#16, 0x9000#16)
  | .ldI _ => (0xF000#16, 0xA000#16)
  | .jpV0 _ => (0xF000#16, 0xB000#16)
  | .rnd _ _ => (0xF000#16, 0xC000#16)
  | .drw _ _ _ => (0xF000#16, 0xD000#16)
  | .skp _ => (0xF0FF#16, 0xE09E#16)
  | .sknp _ => (0xF0FF#16, 0xE0A1#16)
  | .ldVxDT _ => (0xF0FF#16, 0xF007#16)
  | .ldVxK _ => (0xF0FF#16, 0xF00A#16)
  | .ldDT _ => (0xF0FF#16, 0xF015#16)
  | .ldST _ => (0xF0FF#16, 0xF018#16)
  | .addI _ => (0xF0FF#16, 0xF01E#16)
  | .ldF _ => (0xF0FF#16, 0xF029#16)
  | .ldB _ => (0xF0FF#16, 0xF033#16)
  | .storeRegs _ => (0xF0FF#16, 0xF055#16)
  | .loadRegs _ => (0xF0FF#16, 0xF065#16)

/-- The encoder's word fits the instruction's row. -/
def Laws.TableRow.Statement (i : Instr) : Prop := encode i &&& (tableRow i).1 = (tableRow i).2

theorem Laws.TableRow.cls (u : Nibble) : Laws.TableRow.Statement (.cls u) := by
  simp only [Laws.TableRow.Statement, tableRow, encode, and_groupLiteralMask]; simp; decide
theorem Laws.TableRow.ret (u : Nibble) : Laws.TableRow.Statement (.ret u) := by
  simp only [Laws.TableRow.Statement, tableRow, encode, and_groupLiteralMask]; simp; decide
theorem Laws.TableRow.jp (nnn : Addr12) : Laws.TableRow.Statement (.jp nnn) := by
  simp only [Laws.TableRow.Statement, tableRow, encode, and_groupMask]; simp; decide
theorem Laws.TableRow.call (nnn : Addr12) : Laws.TableRow.Statement (.call nnn) := by
  simp only [Laws.TableRow.Statement, tableRow, encode, and_groupMask]; simp; decide
theorem Laws.TableRow.seImm (x : Reg) (nn : Byte) : Laws.TableRow.Statement (.seImm x nn) := by
  simp only [Laws.TableRow.Statement, tableRow, encode, and_groupMask]; simp; decide
theorem Laws.TableRow.sneImm (x : Reg) (nn : Byte) : Laws.TableRow.Statement (.sneImm x nn) := by
  simp only [Laws.TableRow.Statement, tableRow, encode, and_groupMask]; simp; decide
theorem Laws.TableRow.seReg (x : Reg) (y : Reg) (u : Nibble) : Laws.TableRow.Statement (.seReg x y u) := by
  simp only [Laws.TableRow.Statement, tableRow, encode, and_groupMask]; simp; decide
theorem Laws.TableRow.ldImm (x : Reg) (nn : Byte) : Laws.TableRow.Statement (.ldImm x nn) := by
  simp only [Laws.TableRow.Statement, tableRow, encode, and_groupMask]; simp; decide
theorem Laws.TableRow.addImm (x : Reg) (nn : Byte) : Laws.TableRow.Statement (.addImm x nn) := by
  simp only [Laws.TableRow.Statement, tableRow, encode, and_groupMask]; simp; decide
theorem Laws.TableRow.ldReg (x : Reg) (y : Reg) : Laws.TableRow.Statement (.ldReg x y) := by
  simp only [Laws.TableRow.Statement, tableRow, encode, and_groupNibbleMask]; simp; decide
theorem Laws.TableRow.orReg (x : Reg) (y : Reg) : Laws.TableRow.Statement (.orReg x y) := by
  simp only [Laws.TableRow.Statement, tableRow, encode, and_groupNibbleMask]; simp; decide
theorem Laws.TableRow.andReg (x : Reg) (y : Reg) : Laws.TableRow.Statement (.andReg x y) := by
  simp only [Laws.TableRow.Statement, tableRow, encode, and_groupNibbleMask]; simp; decide
theorem Laws.TableRow.xorReg (x : Reg) (y : Reg) : Laws.TableRow.Statement (.xorReg x y) := by
  simp only [Laws.TableRow.Statement, tableRow, encode, and_groupNibbleMask]; simp; decide
theorem Laws.TableRow.addReg (x : Reg) (y : Reg) : Laws.TableRow.Statement (.addReg x y) := by
  simp only [Laws.TableRow.Statement, tableRow, encode, and_groupNibbleMask]; simp; decide
theorem Laws.TableRow.subReg (x : Reg) (y : Reg) : Laws.TableRow.Statement (.subReg x y) := by
  simp only [Laws.TableRow.Statement, tableRow, encode, and_groupNibbleMask]; simp; decide
theorem Laws.TableRow.shr (x : Reg) (y : Reg) : Laws.TableRow.Statement (.shr x y) := by
  simp only [Laws.TableRow.Statement, tableRow, encode, and_groupNibbleMask]; simp; decide
theorem Laws.TableRow.subn (x : Reg) (y : Reg) : Laws.TableRow.Statement (.subn x y) := by
  simp only [Laws.TableRow.Statement, tableRow, encode, and_groupNibbleMask]; simp; decide
theorem Laws.TableRow.shl (x : Reg) (y : Reg) : Laws.TableRow.Statement (.shl x y) := by
  simp only [Laws.TableRow.Statement, tableRow, encode, and_groupNibbleMask]; simp; decide
theorem Laws.TableRow.sneReg (x : Reg) (y : Reg) (u : Nibble) : Laws.TableRow.Statement (.sneReg x y u) := by
  simp only [Laws.TableRow.Statement, tableRow, encode, and_groupMask]; simp; decide
theorem Laws.TableRow.ldI (nnn : Addr12) : Laws.TableRow.Statement (.ldI nnn) := by
  simp only [Laws.TableRow.Statement, tableRow, encode, and_groupMask]; simp; decide
theorem Laws.TableRow.jpV0 (nnn : Addr12) : Laws.TableRow.Statement (.jpV0 nnn) := by
  simp only [Laws.TableRow.Statement, tableRow, encode, and_groupMask]; simp; decide
theorem Laws.TableRow.rnd (x : Reg) (nn : Byte) : Laws.TableRow.Statement (.rnd x nn) := by
  simp only [Laws.TableRow.Statement, tableRow, encode, and_groupMask]; simp; decide
theorem Laws.TableRow.drw (x : Reg) (y : Reg) (n : Nibble) : Laws.TableRow.Statement (.drw x y n) := by
  simp only [Laws.TableRow.Statement, tableRow, encode, and_groupMask]; simp; decide
theorem Laws.TableRow.skp (x : Reg) : Laws.TableRow.Statement (.skp x) := by
  simp only [Laws.TableRow.Statement, tableRow, encode, and_groupLiteralMask]; simp; decide
theorem Laws.TableRow.sknp (x : Reg) : Laws.TableRow.Statement (.sknp x) := by
  simp only [Laws.TableRow.Statement, tableRow, encode, and_groupLiteralMask]; simp; decide
theorem Laws.TableRow.ldVxDT (x : Reg) : Laws.TableRow.Statement (.ldVxDT x) := by
  simp only [Laws.TableRow.Statement, tableRow, encode, and_groupLiteralMask]; simp; decide
theorem Laws.TableRow.ldVxK (x : Reg) : Laws.TableRow.Statement (.ldVxK x) := by
  simp only [Laws.TableRow.Statement, tableRow, encode, and_groupLiteralMask]; simp; decide
theorem Laws.TableRow.ldDT (x : Reg) : Laws.TableRow.Statement (.ldDT x) := by
  simp only [Laws.TableRow.Statement, tableRow, encode, and_groupLiteralMask]; simp; decide
theorem Laws.TableRow.ldST (x : Reg) : Laws.TableRow.Statement (.ldST x) := by
  simp only [Laws.TableRow.Statement, tableRow, encode, and_groupLiteralMask]; simp; decide
theorem Laws.TableRow.addI (x : Reg) : Laws.TableRow.Statement (.addI x) := by
  simp only [Laws.TableRow.Statement, tableRow, encode, and_groupLiteralMask]; simp; decide
theorem Laws.TableRow.ldF (x : Reg) : Laws.TableRow.Statement (.ldF x) := by
  simp only [Laws.TableRow.Statement, tableRow, encode, and_groupLiteralMask]; simp; decide
theorem Laws.TableRow.ldB (x : Reg) : Laws.TableRow.Statement (.ldB x) := by
  simp only [Laws.TableRow.Statement, tableRow, encode, and_groupLiteralMask]; simp; decide
theorem Laws.TableRow.storeRegs (x : Reg) : Laws.TableRow.Statement (.storeRegs x) := by
  simp only [Laws.TableRow.Statement, tableRow, encode, and_groupLiteralMask]; simp; decide
theorem Laws.TableRow.loadRegs (x : Reg) : Laws.TableRow.Statement (.loadRegs x) := by
  simp only [Laws.TableRow.Statement, tableRow, encode, and_groupLiteralMask]; simp; decide

end Sys2Proof
end

