-- ==== Sys2Proof/Tests/Slice0.lean ====
section
/-! SUPPORT. The model's own tests. Expected results are the worked examples (E) and the vectors (V)
of `95_test_vectors.md`, named in each docstring, or the patterns of `30_encoding.md` R75; the last
part shows, for every statement with hypotheses, operands and a state that meet them. -/

namespace Sys2Proof.Tests

open Sys2Proof.Machine

/-! ## Helpers -/

/-- Whether an outcome is a next state of which `p` holds. -/
def nextIs (o : Outcome) (p : State → Bool) : Bool :=
  match o with
  | .next t => p t
  | .fault _ => false
  | .refused _ => false

/-- Whether an outcome is the error with this code and info, leaving a state of which `p` holds. -/
def errorIs (o : Outcome) (code info : Nat) (p : State → Bool) : Bool :=
  match o with
  | .fault f => faultCode f == code && faultInfo f == info && p (faultState f)
  | .next _ => false
  | .refused _ => false

/-- The reset state with some registers and I set. -/
def start (vs : List (Reg × Byte)) (i : Word) : State :=
  vs.foldl (fun s p => s.setV p.1 p.2) { State.reset with i := i }

/-- A STEP of a state with an instruction word placed where it is fetched. -/
def stepOn (w : Nat) (s : State) : Outcome := step (s.withFetchWord 16 w)

/-- The reset state of a core with `STRICT_DECODE`. -/
def strictReset : State :=
  { State.reset with cfg := { Config.default with strictDecode := true } }

/-- The reset state of a core without `PROTECT_LOW_MEMORY`. -/
def unprotectedReset : State :=
  { State.reset with cfg := { Config.default with protectLow := false } }

/-! ## WellFormed: an ill-formed term for each check -/

theorem test_wellFormed_refuses_cls : WellFormed true (.cls 1) = false := by decide
theorem test_wellFormed_refuses_ret : WellFormed true (.ret 0xF) = false := by decide
theorem test_wellFormed_refuses_seReg : WellFormed true (.seReg 1 1 3) = false := by decide
theorem test_wellFormed_refuses_sneReg : WellFormed true (.sneReg 1 2 8) = false := by decide
theorem test_wellFormed_accepts_without_strict :
    WellFormed false (.cls 1) = true ∧ WellFormed false (.sneReg 1 2 8) = true := by decide

/-! ## Decoding: a word written out for every constructor (`30_encoding.md` R75) -/

/-- Control transfer. The word of SE V10, 0x5C is `g = 0011`, `x = 1010`, `nn = 01011100`. -/
theorem test_decode_flow :
    decodeWord false 0b0000000011101110#16 = .accepted (.ret 0) ∧
    decodeWord false 0b0001001010100100#16 = .accepted (.jp 0x2A4) ∧
    decodeWord false 0b0010001100000001#16 = .accepted (.call 0x301) ∧
    decodeWord false 0b0011101001011100#16 = .accepted (.seImm 10 0x5C) ∧
    decodeWord false 0b0100001000010000#16 = .accepted (.sneImm 2 0x10) ∧
    decodeWord false 0b0101000100100000#16 = .accepted (.seReg 1 2 0) ∧
    decodeWord false 0b1001101100010000#16 = .accepted (.sneReg 11 1 0) ∧
    decodeWord false 0b1011111111110001#16 = .accepted (.jpV0 0xFF1) := by decide

/-- Loads and the ALU. The word of SUB VA, VB is `g = 1000`, `x = 1010`, `y = 1011`, `n = 0101`. -/
theorem test_decode_alu :
    decodeWord false 0b0110010100101010#16 = .accepted (.ldImm 5 0x2A) ∧
    decodeWord false 0b0111111111111110#16 = .accepted (.addImm 15 0xFE) ∧
    decodeWord false 0x8010 = .accepted (.ldReg 0 1) ∧
    decodeWord false 0x8021 = .accepted (.orReg 0 2) ∧
    decodeWord false 0x8312 = .accepted (.andReg 3 1) ∧
    decodeWord false 0x8453 = .accepted (.xorReg 4 5) ∧
    decodeWord false 0x86F4 = .accepted (.addReg 6 15) ∧
    decodeWord false 0b1000101010110101#16 = .accepted (.subReg 10 11) ∧
    decodeWord false 0x8346 = .accepted (.shr 3 4) ∧
    decodeWord false 0x8F17 = .accepted (.subn 15 1) ∧
    decodeWord false 0x83CE = .accepted (.shl 3 12) ∧
    decodeWord false 0b1100001000001111#16 = .accepted (.rnd 2 0x0F) := by decide

/-- Index register and memory. The word of LD B, VA is `g = 1111`, `x = 1010`, `nn = 00110011`. -/
theorem test_decode_memory :
    decodeWord false 0b1010000100100011#16 = .accepted (.ldI 0x123) ∧
    decodeWord false 0xF11E = .accepted (.addI 1) ∧
    decodeWord false 0xF429 = .accepted (.ldF 4) ∧
    decodeWord false 0b1111101000110011#16 = .accepted (.ldB 10) ∧
    decodeWord false 0xFF55 = .accepted (.storeRegs 15) ∧
    decodeWord false 0xF265 = .accepted (.loadRegs 2) := by decide

/-- Display, keys and timers. The word of DRW VA, VB, 12 is `1101 1010 1011 1100`. -/
theorem test_decode_display_keys_timers :
    decodeWord false 0x00E0 = .accepted (.cls 0) ∧
    decodeWord false 0b1101101010111100#16 = .accepted (.drw 10 11 0xC) ∧
    decodeWord false 0b1110000110011110#16 = .accepted (.skp 1) ∧
    decodeWord false 0xE1A1 = .accepted (.sknp 1) ∧
    decodeWord false 0xF007 = .accepted (.ldVxDT 0) ∧
    decodeWord false 0xF30A = .accepted (.ldVxK 3) ∧
    decodeWord false 0b1111001100010101#16 = .accepted (.ldDT 3) ∧
    decodeWord false 0xF318 = .accepted (.ldST 3) := by decide

/-- V6 to V8, V11 to V13: words that decode to no instruction. -/
theorem test_decode_illegal :
    decodeWord false 0x0000 = .rejected (.unknownOpcode 0x0000) ∧
    decodeWord false 0x0123 = .rejected (.unknownOpcode 0x0123) ∧
    decodeWord false 0x00EF = .rejected (.unknownOpcode 0x00EF) ∧
    decodeWord false 0x8008 = .rejected (.unknownOpcode 0x8008) ∧
    decodeWord false 0x800F = .rejected (.unknownOpcode 0x800F) ∧
    decodeWord false 0xE09F = .rejected (.unknownOpcode 0xE09F) ∧
    decodeWord false 0xF000 = .rejected (.unknownOpcode 0xF000) ∧
    decodeWord false 0xF0FF = .rejected (.unknownOpcode 0xF0FF) := by decide

/-- V9, V10, V14, V15: unexamined bits, ignored or not by `STRICT_DECODE`. -/
theorem test_decode_unexamined :
    decodeWord false 0x01E0 = .accepted (.cls 1) ∧
    decodeWord true 0x01E0 = .rejected (.unknownOpcode 0x01E0) ∧
    decodeWord false 0x5113 = .accepted (.seReg 1 1 3) ∧
    decodeWord true 0x5113 = .rejected (.unknownOpcode 0x5113) := by decide

/-- `20_memory.md` R54: the byte at the lower address is the high byte. -/
theorem test_decode_bytes :
    decodeBytes false [0x6A, 0x7B, 0xA3] = .accepted (.ldImm 10 0x7B, [0xA3]) ∧
    decodeBytes false [0x6A] = .rejected .truncated ∧
    decodeTableWord 16 0xD123 = some (.drw 1 2 3) ∧ decodeTableWord 16 0x0000 = none := by decide

/-! ## Fetch -/

/-- V1, V2, V3, V4: the checks of the program counter, in their order. -/
theorem test_fetch_checks :
    errorIs (step { State.reset with pc := 0x201 }) 7 0x201 (fun t => t.pc == 0x201) = true ∧
    errorIs (step { State.reset with pc := 0x1FE }) 8 0x1FE (fun t => t.pc == 0x1FE) = true ∧
    errorIs (step { State.reset with pc := 0x101 }) 7 0x101 (fun t => t.pc == 0x101) = true ∧
    errorIs (step { State.reset with pc := 0x1000 }) 5 0x1000 (fun t => t.pc == 0x1000) = true := by
  decide

/-- V5: the last word of memory is fetched and run. -/
theorem test_fetch_last_word :
    nextIs (stepOn 0x6001 { State.reset with pc := 0xFFE })
      (fun t => t.getV 0 == 1 && t.pc == 0x1000) = true := by decide

/-- V10 by a step: an illegal word advances the program counter alone. -/
theorem test_fetch_illegal_word :
    errorIs (stepOn 0x01E0 strictReset) 4 0x01E0 (fun t => t.pc == 0x202) = true := by decide

/-! ## Control transfer -/

/-- V20. -/
theorem test_ret :
    nextIs (stepOn 0x00EE { State.reset with
        pc := 0x212, sp := 1, stack := State.reset.stack.set 0 0x206 })
      (fun t => t.pc == 0x206 && t.sp == 0 && t.stack[0] == 0x206) = true := by decide

/-- V21. -/
theorem test_ret_underflow :
    errorIs (stepOn 0x00EE State.reset) 3 0x200 (fun t => t.pc == 0x202 && t.sp == 0) = true := by
  decide

/-- V25. -/
theorem test_jp : nextIs (stepOn 0x1201 State.reset) (fun t => t.pc == 0x201) = true := by decide

/-- V22. -/
theorem test_call :
    nextIs (stepOn 0x2300 State.reset)
      (fun t => t.pc == 0x300 && t.sp == 1 && t.stack[0] == 0x202) = true := by decide

/-- V23. -/
theorem test_call_overflow :
    errorIs (stepOn 0x2300 { State.reset with sp := 16 }) 2 0x200
      (fun t => t.pc == 0x202 && t.sp == 16 && t.stack == State.reset.stack) = true := by decide

/-- E6, V35. -/
theorem test_seImm :
    nextIs (stepOn 0x3210 (start [(2, 0x10)] 0)) (fun t => t.pc == 0x204) = true ∧
    nextIs (stepOn 0x3F10 (start [(15, 0x10)] 0)) (fun t => t.pc == 0x204) = true := by decide

/-- V34: a skip past the end of memory. -/
theorem test_seImm_beyond :
    nextIs (stepOn 0x3000 { State.reset with pc := 0xFFE }) (fun t => t.pc == 0x1002) = true := by
  decide

/-- V28. -/
theorem test_sneImm :
    nextIs (stepOn 0x4210 (start [(2, 0x11)] 0)) (fun t => t.pc == 0x204) = true ∧
    nextIs (stepOn 0x4210 (start [(2, 0x10)] 0)) (fun t => t.pc == 0x202) = true := by decide

/-- V29, V14. -/
theorem test_seReg :
    nextIs (stepOn 0x5120 (start [(1, 7), (2, 7)] 0)) (fun t => t.pc == 0x204) = true ∧
    nextIs (stepOn 0x5113 (start [(1, 7)] 0)) (fun t => t.pc == 0x204) = true := by decide

/-- V30, V31. -/
theorem test_sneReg :
    nextIs (stepOn 0x9120 (start [(1, 7), (2, 8)] 0)) (fun t => t.pc == 0x204) = true ∧
    nextIs (stepOn 0x9110 (start [(1, 7)] 0)) (fun t => t.pc == 0x202) = true := by decide

/-- V32, V33. -/
theorem test_jpV0 :
    nextIs (stepOn 0xB300 (start [(0, 4)] 0)) (fun t => t.pc == 0x304) = true ∧
    nextIs (stepOn 0xBFFF (start [(0, 0xFF)] 0)) (fun t => t.pc == 0x10FE) = true := by decide

/-! ## Loads and the ALU -/

/-- V40. -/
theorem test_ldImm :
    nextIs (stepOn 0x652A State.reset) (fun t => t.getV 5 == 0x2A && t.pc == 0x202) = true := by
  decide

/-- V41, V43: the sum wraps and sets no flag. -/
theorem test_addImm :
    nextIs (stepOn 0x7002 (start [(0, 0xFF)] 0)) (fun t => t.getV 0 == 1 && t.getV VF == 0) = true ∧
    nextIs (stepOn 0x7FFF State.reset) (fun t => t.getV VF == 0xFF) = true := by decide

/-- V44. -/
theorem test_ldReg :
    nextIs (stepOn 0x8010 (start [(1, 0x33)] 0)) (fun t => t.getV 0 == 0x33) = true := by decide

/-- V45: VF is not reset. -/
theorem test_orReg :
    nextIs (stepOn 0x8011 (start [(0, 0xF0), (1, 0x0F), (15, 1)] 0))
      (fun t => t.getV 0 == 0xFF && t.getV VF == 1) = true := by decide

/-- V46. -/
theorem test_andReg :
    nextIs (stepOn 0x8012 (start [(0, 0xF0), (1, 0x3C)] 0)) (fun t => t.getV 0 == 0x30) = true := by
  decide

/-- V47: the source is the destination. -/
theorem test_xorReg :
    nextIs (stepOn 0x8003 (start [(0, 0x5A)] 0)) (fun t => t.getV 0 == 0) = true := by decide

/-- E3, V49: 256 carries, 255 does not. -/
theorem test_addReg :
    nextIs (stepOn 0x8014 (start [(0, 0xFF), (1, 2)] 0))
      (fun t => t.getV 0 == 1 && t.getV VF == 1) = true ∧
    nextIs (stepOn 0x8014 (start [(0, 0x80), (1, 0x7F), (15, 9)] 0))
      (fun t => t.getV 0 == 0xFF && t.getV VF == 0) = true := by decide

/-- V51, V52: VF as the destination holds the flag; VF as the source is read before it is written. -/
theorem test_addReg_vf :
    nextIs (stepOn 0x8F14 (start [(15, 0xFF), (1, 1)] 0)) (fun t => t.getV VF == 1) = true ∧
    nextIs (stepOn 0x80F4 (start [(0, 1), (15, 0xFF)] 0))
      (fun t => t.getV 0 == 0 && t.getV VF == 1) = true := by decide

/-- E4, V54, V55. -/
theorem test_subReg :
    nextIs (stepOn 0x8015 (start [(0, 0x10), (1, 5)] 0))
      (fun t => t.getV 0 == 0x0B && t.getV VF == 1) = true ∧
    nextIs (stepOn 0x8015 (start [(0, 5), (1, 0x10), (15, 9)] 0))
      (fun t => t.getV 0 == 0xF5 && t.getV VF == 0) = true ∧
    nextIs (stepOn 0x8015 (start [(0, 7), (1, 7)] 0))
      (fun t => t.getV 0 == 0 && t.getV VF == 1) = true := by decide

/-- V60, V59: y is ignored, VF takes the old bit 0. -/
theorem test_shr :
    nextIs (stepOn 0x8346 (start [(3, 5), (4, 0xFF)] 0))
      (fun t => t.getV 3 == 2 && t.getV VF == 1 && t.getV 4 == 0xFF) = true ∧
    nextIs (stepOn 0x8F06 (start [(15, 3)] 0)) (fun t => t.getV VF == 1) = true := by decide

/-- V61, V62. -/
theorem test_subn :
    nextIs (stepOn 0x8017 (start [(0, 5), (1, 0x10)] 0))
      (fun t => t.getV 0 == 0x0B && t.getV VF == 1) = true ∧
    nextIs (stepOn 0x8017 (start [(0, 0x10), (1, 5)] 0))
      (fun t => t.getV 0 == 0xF5 && t.getV VF == 0) = true := by decide

/-- V64, V66. -/
theorem test_shl :
    nextIs (stepOn 0x830E (start [(3, 0x81)] 0))
      (fun t => t.getV 3 == 2 && t.getV VF == 1) = true ∧
    nextIs (stepOn 0x8F0E (start [(15, 0x80)] 0)) (fun t => t.getV VF == 1) = true := by decide

/-- V67: the random byte 0xA7 masked by 0x0F. The byte itself is a free value. -/
theorem test_rnd : (State.reset.randomAnd 2 0x0F 0xA7).getV 2 = 0x07 := by decide

/-! ## Index register and memory -/

/-- V70. -/
theorem test_ldI : nextIs (stepOn 0xA123 State.reset) (fun t => t.i == 0x123) = true := by decide

/-- V72, V73: 16 bits, not masked to 12, no flag. -/
theorem test_addI :
    nextIs (stepOn 0xF11E (start [(1, 1), (15, 9)] 0xFFFF))
      (fun t => t.i == 0 && t.getV VF == 9) = true ∧
    nextIs (stepOn 0xF11E (start [(1, 1)] 0x0FFF)) (fun t => t.i == 0x1000) = true := by decide

/-- V74, V75: the whole register times 5. -/
theorem test_ldF :
    nextIs (stepOn 0xF429 (start [(4, 0x0A)] 0)) (fun t => t.i == 0x032) = true ∧
    nextIs (stepOn 0xF429 (start [(4, 0xFF)] 0)) (fun t => t.i == 0x4FB) = true := by decide

/-- E7: 123 at 0x300. -/
theorem test_ldB :
    nextIs (stepOn 0xF033 (start [(0, 123)] 0x300))
      (fun t => t.peek 0x300 == 1 && t.peek 0x301 == 2 && t.peek 0x302 == 3 && t.i == 0x300) = true := by
  decide

/-- V78, V79, V81: all or nothing, the first failing address, and no protection. -/
theorem test_ldB_errors :
    errorIs (stepOn 0xF033 (start [(0, 255)] 0xFFE)) 5 0x1000
      (fun t => t.pc == 0x202 && t.peek 0xFFE == 0 && t.peek 0xFFF == 0) = true ∧
    errorIs (stepOn 0xF033 { start [(0, 255)] 0x1FF with pc := 0x300 }) 6 0x1FF
      (fun t => t.pc == 0x302 && t.peek 0x200 == 0) = true ∧
    nextIs (stepOn 0xF033 { (unprotectedReset.setV 0 255) with i := 0x1FF, pc := 0x300 })
      (fun t => t.peek 0x1FF == 2 && t.peek 0x200 == 5 && t.peek 0x201 == 5) = true := by decide

/-- V82. -/
theorem test_storeRegs :
    nextIs (stepOn 0xF155 (start [(0, 0x11), (1, 0x22), (2, 0x33)] 0x400))
      (fun t => t.peek 0x400 == 0x11 && t.peek 0x401 == 0x22 && t.peek 0x402 == 0 && t.i == 0x400) =
      true := by decide

/-- V83, V84: the last address that fits, and one more. -/
theorem test_storeRegs_bounds :
    nextIs (stepOn 0xFF55 (start [(0, 3), (15, 9)] 0xFF0))
      (fun t => t.peek 0xFF0 == 3 && t.peek 0xFFF == 9) = true ∧
    errorIs (stepOn 0xFF55 (start [(0, 3), (15, 9)] 0xFF1)) 5 0x1000
      (fun t => t.pc == 0x202 && t.peek 0xFF1 == 0) = true := by decide

/-- V87: the glyph of 0. -/
theorem test_loadRegs :
    nextIs (stepOn 0xF465 (start [(5, 7)] 0))
      (fun t => t.getV 0 == 0xF0 && t.getV 1 == 0x90 && t.getV 4 == 0xF0 && t.getV 5 == 7 &&
        t.i == 0) = true := by decide

/-- V88, V89. -/
theorem test_loadRegs_errors :
    errorIs (stepOn 0xFF65 (start [(0, 3)] 0xFF1)) 5 0x1000
      (fun t => t.pc == 0x202 && t.getV 0 == 3) = true ∧
    errorIs (stepOn 0xF065 (start [] 0xFFFF)) 5 0xFFFF (fun t => t.pc == 0x202) = true := by decide

/-! ## Frame buffer -/

/-- V90. -/
theorem test_cls :
    nextIs (exec (.cls 0) { start [(15, 5)] 0 with
        disp := Screen.blank.toggle 3 4, redrawPending := false })
      (fun t => !t.disp.pixel 3 4 && t.redrawPending && t.getV VF == 5) = true := by decide +kernel

/-- V93: one pixel off, one on, a collision. -/
theorem test_drw :
    nextIs (exec (.drw 0 1 1) { (start [] 0x300).poke 0x300 0xC0 with disp := Screen.blank.toggle 0 0 })
      (fun t => !t.disp.pixel 0 0 && t.disp.pixel 1 0 && t.getV VF == 1) = true := by decide +kernel

/-- V96, V95: wrapping at the bottom and on the right. -/
theorem test_drw_wraps :
    nextIs (exec (.drw 0 1 2) (((start [(1, 31)] 0x300).poke 0x300 0x80).poke 0x301 0x80))
      (fun t => t.disp.pixel 0 31 && t.disp.pixel 0 0) = true ∧
    nextIs (exec (.drw 0 1 1) ((start [(0, 60)] 0x300).poke 0x300 0xFF))
      (fun t => t.disp.pixel 63 0 && t.disp.pixel 3 0 && !t.disp.pixel 4 0 && t.getV VF == 0) =
      true := by decide +kernel

/-! ## Keys and timers -/

/-- V110, V114. -/
theorem test_skp :
    nextIs (stepOn 0xE19E { start [(1, 0x0A)] 0 with keys := State.reset.keys.set 0xA true })
      (fun t => t.pc == 0x204) = true ∧
    errorIs (stepOn 0xE19E (start [(1, 0x10)] 0)) 9 0x10 (fun t => t.pc == 0x202) = true := by decide

/-- V112, V113. -/
theorem test_sknp :
    nextIs (stepOn 0xE1A1 (start [(1, 0x0A)] 0)) (fun t => t.pc == 0x204) = true ∧
    nextIs (stepOn 0xE1A1 { start [(1, 0x0A)] 0 with keys := State.reset.keys.set 0xA true })
      (fun t => t.pc == 0x202) = true := by decide

/-- V115. -/
theorem test_ldVxDT :
    nextIs (stepOn 0xF007 { State.reset with dt := 0x3C })
      (fun t => t.getV 0 == 0x3C && t.dt == 0x3C) = true := by decide

/-- V117, E11: a held key does not resolve the wait; PC is past the instruction. -/
theorem test_ldVxK :
    nextIs (stepOn 0xF30A { State.reset with keys := State.reset.keys.set 5 true, pc := 0x208 })
      (fun t => t.awaitingKey && t.keyTarget == 3 && t.pc == 0x20A && t.getV 3 == 0) = true := by
  decide

/-- V118. -/
theorem test_ldDT :
    nextIs (stepOn 0xF315 (start [(3, 0x0A)] 0)) (fun t => t.dt == 0x0A) = true := by decide

/-- V119. -/
theorem test_ldST :
    nextIs (stepOn 0xF318 (start [(3, 5)] 0)) (fun t => t.st == 5 && toneOn t) = true := by decide

/-! ## Commands -/

/-- V131, V130. -/
theorem test_tick :
    (tickCommand { State.reset with dt := 1, st := 5 }).dt = 0 ∧
    (tickCommand { State.reset with dt := 1, st := 5 }).st = 4 ∧
    (tickCommand State.reset).dt = 0 := by decide

/-- E8: a release does not resolve the wait, a press does. -/
theorem test_setKey :
    nextIs (runCommands [.setKey 0xA false, .setKey 16 true, .setKey (-1) true]
        { State.reset with awaitingKey := true, keyTarget := 3 })
      (fun t => t.awaitingKey && t.getV 3 == 0 && !t.keys[0xA]) = true ∧
    nextIs (runCommand (.setKey 0xA true) { State.reset with awaitingKey := true, keyTarget := 3 })
      (fun t => !t.awaitingKey && t.getV 3 == 0x0A && t.keys[0xA]) = true := by decide

/-- V144: nothing beyond the bytes is cleared. -/
theorem test_load :
    nextIs (runCommands [.load [0x11, 0x22, 0x33, 0x44], .load [0xAA, 0xBB]] (start [(0, 9)] 0))
      (fun t => t.peek 0x200 == 0xAA && t.peek 0x201 == 0xBB && t.peek 0x202 == 0x33 &&
        t.peek 0x203 == 0x44 && t.getV 0 == 9) = true := by decide

/-- E1, E10. -/
theorem test_reset :
    State.reset.pc = 0x200 ∧ State.reset.peek 0 = 0xF0 ∧ State.reset.peek 0x50 = 0 ∧
    State.reset.redrawPending = true ∧ State.reset.mem.wf State.reset.cfg = true := by decide

/-- The machine the host runs is this step and this reset state. -/
theorem test_core : Sys2Proof.core.reset = State.reset ∧ Sys2Proof.core.step = step := ⟨rfl, rfl⟩

/-! ## Memory's canonical form -/

/-- Writing what an unlisted address reads as removes the cell: equal memories are equal data. -/
theorem test_memory_canonical :
    ((State.reset.poke 0x300 7).poke 0x300 0).mem = [] ∧
    ((State.reset.poke 0x301 7).poke 0x300 8).mem = [(0x300, 8), (0x301, 7)] := by decide

/-! ## Witnesses: the hypotheses of each statement are met -/

theorem witness_DecodeOfEncodeIsTheInstruction :
    WellFormed true (.drw 15 0 0xF) = true ∧ WellFormed true (.ret 0) = true ∧
    WellFormed false (.sneReg 15 15 0xF) = true := by decide

theorem witness_LegalWordsEncodeBack :
    decodeWord true 0xFF65 = .accepted (.loadRegs 15) ∧
    decodeWord false 0x5FFF = .accepted (.seReg 15 15 0xF) := by decide

/-- Both clauses, at neighbouring words. -/
theorem witness_RejectedWordsAreExactlyTheIllegal :
    IllegalWord false 0x0000 ∧ IllegalWord false 0x8AB8 ∧ ¬IllegalWord false 0x8AB7 ∧
    IllegalWord true 0x01E0 ∧ ¬IllegalWord false 0x01E0 ∧ IllegalWord true 0x9001 ∧
    ¬IllegalWord true 0x9000 := by
  simp [IllegalWord]

theorem witness_KeyWaitStallsStep :
    ({ State.reset with awaitingKey := true, pc := 0xFFFF } : State).awaitingKey = true := by decide

/-- The reset state at another program counter. -/
def atPc (pc : Word) : State := { State.reset with pc := pc }

/-- The three clauses, each at the boundary values of its range. -/
theorem witness_FetchChecksInOrder :
    (∀ pc, (atPc pc).awaitingKey = false) ∧
    (atPc 0x0001).pc.toNat % 2 = 1 ∧ (atPc 0xFFFF).pc.toNat % 2 = 1 ∧
    ((atPc 0x0000).pc.toNat % 2 = 0 ∧ (atPc 0x0000).pc.toNat < 0x200) ∧
    ((atPc 0x01FE).pc.toNat % 2 = 0 ∧ (atPc 0x01FE).pc.toNat < 0x200) ∧
    ((atPc 0x1000).pc.toNat % 2 = 0 ∧ 0x200 ≤ (atPc 0x1000).pc.toNat ∧
      0xFFF < (atPc 0x1000).pc.toNat + 1) ∧
    ((atPc 0xFFFE).pc.toNat % 2 = 0 ∧ 0x200 ≤ (atPc 0xFFFE).pc.toNat ∧
      0xFFF < (atPc 0xFFFE).pc.toNat + 1) :=
  ⟨fun _ => rfl, by decide⟩

/-- The first and the last place a word is fetched from. -/
theorem witness_StepRunsDecodedInstruction :
    Fetches (State.reset.withFetchWord 16 0x6A7B) (.ldImm 10 0x7B) ∧
    Fetches ({ State.reset with pc := 0xFFE }.withFetchWord 16 0xD015) (.drw 0 1 5) :=
  ⟨⟨by decide, ⟨by decide, by decide, by decide⟩, by decide⟩,
    ⟨by decide, ⟨by decide, by decide, by decide⟩, by decide⟩⟩

theorem witness_IllegalWordRaisesUnknownOpcode :
    State.reset.awaitingKey = false ∧ FetchOk State.reset ∧
    IllegalWord State.reset.cfg.strictDecode (State.reset.fetchWord State.reset.pc) :=
  ⟨by decide, ⟨by decide, by decide, by decide⟩, by simp only [IllegalWord]; decide⟩

/-- Both clauses: an error after the fetch and one of the fetch. -/
theorem witness_EveryErrorIsPrecise :
    step State.reset = .fault (.unknownOpcode 0 { State.reset with pc := 0x202 }) ∧
    FetchOk State.reset ∧
    step { State.reset with pc := 0x1000 } =
      .fault (.memoryOutOfRange 0x1000 { State.reset with pc := 0x1000 }) ∧
    ¬FetchOk { State.reset with pc := 0x1000 } :=
  ⟨rfl, ⟨by decide, by decide, by decide⟩, rfl, fun h => absurd h.inside (by decide)⟩

/-- Every clause but LOAD's has a step that raises its error (`test_fetch_checks` has the three of the
fetch; the rest are `test_ret_underflow`, `test_call_overflow`, `test_fetch_illegal_word`,
`test_ldB_errors`, `test_storeRegs_bounds`, `test_loadRegs_errors`, `test_skp`). -/
theorem witness_ErrorsHaveTheListedCauses :
    errorIs (stepOn 0x00EE State.reset) 3 0x200 (fun _ => true) = true ∧
    errorIs (stepOn 0x2300 { State.reset with sp := 16 }) 2 0x200 (fun _ => true) = true ∧
    errorIs (step State.reset) 4 0 (fun _ => true) = true ∧
    errorIs (stepOn 0xD012 (start [] 0xFFF)) 5 0x1000 (fun _ => true) = true ∧
    errorIs (stepOn 0xF055 (start [] 0x1FF)) 6 0x1FF (fun _ => true) = true ∧
    errorIs (step { State.reset with pc := 0xFFFF }) 7 0xFFFF (fun _ => true) = true ∧
    errorIs (step { State.reset with pc := 0 }) 8 0 (fun _ => true) = true ∧
    errorIs (stepOn 0xE1A1 (start [(1, 0xFF)] 0)) 9 0xFF (fun _ => true) = true := by decide

/-- The rejected word's clause of `StepRunsDecodedInstruction`. -/
theorem witness_StepRunsDecodedInstruction_rejected :
    State.reset.awaitingKey = false ∧ FetchOk State.reset ∧
    decodeWord State.reset.cfg.strictDecode (State.reset.fetchWord State.reset.pc) =
      .rejected (.unknownOpcode 0) :=
  ⟨by decide, ⟨by decide, by decide, by decide⟩, by decide⟩

/-- Targets of the two faults at their boundaries. -/
theorem witness_JumpAssignsPc :
    State.reset.awaitingKey = false ∧ (0x001 : Addr12).toNat % 2 = 1 ∧
    (0xFFF : Addr12).toNat % 2 = 1 ∧
    ((0x000 : Addr12).toNat % 2 = 0 ∧ (0x000 : Addr12).toNat < 0x200) ∧
    ((0x1FE : Addr12).toNat % 2 = 0 ∧ (0x1FE : Addr12).toNat < 0x200) := by decide

/-- Sums of the three faults at their boundaries: 0x001, 0x000, 0x1FE, 0x1000, 0x10FE (V33). -/
theorem witness_JumpIndexedByV0 :
    State.reset.awaitingKey = false ∧
    nextIs (exec (.jpV0 0x001) State.reset) (fun t => t.pc.toNat % 2 == 1) = true ∧
    nextIs (exec (.jpV0 0x000) State.reset) (fun t => t.pc == 0x000) = true ∧
    nextIs (exec (.jpV0 0x1FD) (start [(0, 1)] 0)) (fun t => t.pc == 0x1FE) = true ∧
    nextIs (exec (.jpV0 0xFFF) (start [(0, 1)] 0)) (fun t => t.pc == 0x1000) = true ∧
    nextIs (exec (.jpV0 0xFFF) (start [(0, 0xFF)] 0)) (fun t => t.pc == 0x10FE) = true := by decide

/-- A step that runs another instruction than LD DT, Vx. -/
theorem witness_TimerRegistersReadAndWritten :
    (∃ t, step (State.reset.withFetchWord 16 0xF007) = .next t) ∧
    ∀ y, ¬Fetches (State.reset.withFetchWord 16 0xF007) (.ldDT y) := by
  refine ⟨⟨_, rfl⟩, fun y h => ?_⟩
  have hd : decodeWord false 0xF007 = .accepted (.ldDT y) := h.word
  rw [show decodeWord false 0xF007 = .accepted (.ldVxDT 0) by decide] at hd
  cases hd

/-- One entry, sixteen entries, none. -/
theorem witness_ReturnPopsTheStack :
    ({ State.reset with sp := 1 } : State).sp.val = (0 : Fin 16).val + 1 ∧
    ({ State.reset with sp := 16 } : State).sp.val = (15 : Fin 16).val + 1 ∧
    State.reset.sp = 0 := by decide

/-- No entry, fifteen entries, sixteen. -/
theorem witness_CallPushesAndJumps :
    State.reset.sp.val = (0 : Fin 16).val ∧
    ({ State.reset with sp := 15 } : State).sp.val = (15 : Fin 16).val ∧
    ({ State.reset with sp := 16 } : State).sp = 16 := by decide

theorem witness_ReturnComesBackAfterCall :
    State.reset.sp.val < 16 ∧ ({ State.reset with sp := 15 } : State).sp.val < 16 := by decide

/-- The premises of the two decoding clauses: accepted, and rejected under `STRICT_DECODE`. -/
theorem witness_SkipsOnRegisters :
    (false = false ∨ (0xF : Nibble) = 0) ∧ (true = false ∨ (0 : Nibble) = 0) ∧
    (1 : Nibble) ≠ 0 ∧ (0xF : Nibble) ≠ 0 := by decide

/-- A skip taken and a skip not taken, of a literal and of a key. -/
theorem witness_SkipsAddOneWordAndNothingElse :
    IsSkip (.seImm 2 0) ∧ SkipTaken (.seImm 2 0) State.reset ∧
    exec (.seImm 2 0) State.reset = .next { State.reset with pc := 0x202 } ∧
    IsSkip (.skp 2) ∧ ¬SkipTaken (.skp 2) State.reset ∧
    exec (.skp 2) State.reset = .next State.reset := by
  refine ⟨trivial, rfl, rfl, trivial, ?_, rfl⟩
  rintro ⟨k, -, hk⟩
  revert k
  decide

theorem witness_FlagIsZeroOrOne :
    (∃ x y : Reg, ∃ n : Nibble, Instr.addReg VF 1 = .addReg x y ∨ Instr.addReg VF 1 = .drw x y n) ∧
    nextIs (exec (.addReg VF 1) State.reset) (fun _ => true) = true ∧
    nextIs (exec (.drw VF 0 0) State.reset) (fun _ => true) = true :=
  ⟨⟨VF, 1, 0, .inl rfl⟩, by decide, by decide⟩

/-- The first and the last address of a store of three bytes. -/
theorem witness_BcdStoresThreeDigits :
    ((start [] 0x200).i.toNat + 2 ≤ 0xFFF ∧
      ((start [] 0x200).cfg.protectLow = true → 0x200 ≤ (start [] 0x200).i.toNat)) ∧
    ((start [] 0xFFD).i.toNat + 2 ≤ 0xFFF ∧
      ((start [] 0xFFD).cfg.protectLow = true → 0x200 ≤ (start [] 0xFFD).i.toNat)) ∧
    unprotectedReset.cfg.protectLow = false := by decide

/-- The first and the last address of a store of sixteen bytes. -/
theorem witness_StoreRegistersInclusive :
    ((start [] 0x200).i.toNat + (15 : Reg).val ≤ 0xFFF ∧
      ((start [] 0x200).cfg.protectLow = true → 0x200 ≤ (start [] 0x200).i.toNat)) ∧
    ((start [] 0xFF0).i.toNat + (15 : Reg).val ≤ 0xFFF ∧
      ((start [] 0xFF0).cfg.protectLow = true → 0x200 ≤ (start [] 0xFF0).i.toNat)) := by decide

theorem witness_LoadRegistersInclusive :
    (start [] 0).i.toNat + (15 : Reg).val ≤ 0xFFF ∧
    (start [] 0xFF0).i.toNat + (15 : Reg).val ≤ 0xFFF ∧
    (start [] 0xFFF).i.toNat + (0 : Reg).val ≤ 0xFFF := by decide

theorem witness_StoredRegistersLoadBack :
    ∃ t t' : State, exec (.storeRegs 1) (start [(0, 3), (1, 4)] 0x300) = .next t ∧
      t'.mem = t.mem ∧ t'.cfg = t.cfg ∧ t'.i = t.i ∧ t'.v ≠ t.v :=
  ⟨_, { State.reset with mem := [(0x300, 3), (0x301, 4)], i := 0x300 }, rfl, by decide, by decide,
    by decide, by decide⟩

/-- The clauses at their boundaries: I just below the program start, ranges one byte too long, and I
beyond memory. No value of I meets both the premise of protection and that of a range. -/
theorem witness_FailingRangeReportsLowestAddress :
    (State.reset.cfg.protectLow = true ∧ (start [] 0x1FF).i.toNat < 0x200) ∧
    0xFFF < (start [] 0xFFE).i.toNat + 2 ∧ 0xFFF < (start [] 0xFFFF).i.toNat + 2 ∧
    0xFFF < (start [] 0xFF1).i.toNat + (15 : Reg).val ∧
    0xFFF < (start [] 0x1000).i.toNat + (0 : Reg).val ∧
    (0 < (2 : Nibble).toNat ∧ 0xFFF < (start [] 0xFFF).i.toNat + ((2 : Nibble).toNat - 1)) := by decide

/-- No rows at any I, and fifteen rows at the last I they fit at. -/
theorem witness_DrawTogglesTheSprite :
    ((0 : Nibble).toNat = 0 ∨ (start [] 0xFFFF).i.toNat + ((0 : Nibble).toNat - 1) ≤ 0xFFF) ∧
    ((0xF : Nibble).toNat = 0 ∨ (start [] 0xFF1).i.toNat + ((0xF : Nibble).toNat - 1) ≤ 0xFFF) := by
  decide

/-- The premise, on the glyph of 0 and a blank screen. -/
theorem witness_DrawingTwiceRestoresTheScreen :
    (0 : Reg) ≠ VF ∧ (1 : Reg) ≠ VF ∧ (∃ t, exec (.drw 0 1 5) State.reset = .next t) ∧
    State.reset.disp = Screen.blank :=
  ⟨by decide, by decide, ⟨_, execDrw_next.mpr ⟨by decide, rfl⟩⟩, rfl⟩

/-- The lowest and the highest key, and the first index beyond. -/
theorem witness_SkipsOnKeyLevel :
    (State.reset.getV 1).toNat = (0 : Reg).val ∧
    ((start [(1, 15)] 0).getV 1).toNat = (15 : Reg).val ∧
    15 < ((start [(1, 16)] 0).getV 1).toNat := by decide

/-- An index on either side, a wait that a press resolves, and no wait. -/
theorem witness_SetKeyWritesAndResolves :
    ((-1 : Int) < 0 ∨ 15 < (-1 : Int)) ∧ ((16 : Int) < 0 ∨ 15 < (16 : Int)) ∧
    ({ State.reset with awaitingKey := true } : State).awaitingKey = true ∧
    State.reset.awaitingKey = false := by decide

/-- No byte, a full program, one byte more. -/
theorem witness_LoadCopiesOrFails :
    ([] : List Byte).length ≤ 3584 ∧ (List.replicate 3584 (0 : Byte)).length ≤ 3584 ∧
    3584 < (List.replicate 3585 (0 : Byte)).length := by
  simp only [List.length_replicate, List.length_nil]; decide

/-- The constraint on the parameters, and addresses of the three ranges. -/
theorem witness_ResetGivesEveryElementItsValue :
    State.reset.cfg.wf ∧ 79 < 80 ∧ (0x50 ≤ 0x50 ∧ 0x50 ≤ 0xFFF) ∧ (0x50 ≤ 0xFFF ∧ 0xFFF ≤ 0xFFF) := by
  decide

theorem witness_OnlyResetBeforeTheFirstReset : Command.load [] ≠ .reset := by decide

/-- The wait entered by LD Vx, K, left by a press, kept by a step, and TICK during it. -/
theorem witness_KeyWaitIsEnteredAndLeftOnlySo :
    nextIs (runCommand .step (State.reset.withFetchWord 16 0xF30A)) (fun t => t.awaitingKey) = true ∧
    nextIs (runCommand (.setKey 15 true) { State.reset with awaitingKey := true })
      (fun t => !t.awaitingKey) = true ∧
    nextIs (runCommand .step { State.reset with awaitingKey := true }) (fun t => t.awaitingKey) = true ∧
    nextIs (runCommand .tick { State.reset with awaitingKey := true }) (fun t => t.awaitingKey) =
      true := by decide

/-- Steps that write I, a general register, the program counter beyond the advance, and the index of
the random byte. -/
theorem witness_OnlyTheListedInstructionsWrite :
    (∃ t, step (State.reset.withFetchWord 16 0xA123) = .next t ∧ t.i ≠ State.reset.i) ∧
    (∃ t, step (State.reset.withFetchWord 16 0x6A7B) = .next t ∧ t.getV 10 ≠ State.reset.getV 10) ∧
    (∃ t, step (State.reset.withFetchWord 16 0x12A4) = .next t ∧ t.pc ≠ State.reset.pc + 2) ∧
    (∃ t, step (State.reset.withFetchWord 16 0xC20F) = .next t ∧ t.draws ≠ State.reset.draws) :=
  ⟨⟨_, rfl, by decide⟩, ⟨_, rfl, by decide⟩, ⟨_, rfl, by decide⟩, ⟨_, rfl, by decide⟩⟩

theorem reset_inv : Inv State.reset := ⟨rfl, rfl, fun _ _ _ => rfl⟩

/-- A state with a program in memory meets the invariant, and steps. -/
theorem witness_StepKeepsTheInvariant :
    Inv (State.reset.pokeRun 0x200 [0x6A, 0x7B]) ∧
    ∃ t, step (State.reset.pokeRun 0x200 [0x6A, 0x7B]) = .next t :=
  ⟨⟨by decide, rfl, fun _ a ha => State.peek_pokeRun_outside _ _ _ (.inl ha)⟩, _, rfl⟩

/-- A command that succeeds and one that fails. -/
theorem witness_EveryCommandKeepsTheInvariant :
    Inv State.reset ∧ (∃ t, stateAfter (runCommand .tick State.reset) = some t) ∧
    ∃ t, stateAfter (runCommand .step State.reset) = some t :=
  ⟨reset_inv, ⟨_, rfl⟩, ⟨_, rfl⟩⟩

/-- A step that stores, on a core that protects low memory. -/
theorem witness_NoStepWritesLowMemory :
    ((start [(0, 9)] 0x300).withFetchWord 16 0xF055).cfg.protectLow = true ∧
    (∃ t, step ((start [(0, 9)] 0x300).withFetchWord 16 0xF055) = .next t) ∧ 0x1FF < 0x200 :=
  ⟨by decide, ⟨_, rfl⟩, by decide⟩

theorem witness_EveryCommandKeepsPcBounded :
    PcBounded State.reset ∧ PcBounded { State.reset with pc := 0x10FE } ∧
    ∃ t, stateAfter (runCommand .step { State.reset with pc := 0x10FE }) = some t :=
  ⟨⟨by decide, by decide⟩, ⟨by decide, by decide⟩, _, rfl⟩

theorem witness_ReachableStatesMeetTheInvariants :
    Config.default.wf ∧ Reachable Config.default { State.reset with pc := 0x202 } :=
  ⟨rfl, .command .step State.reset _ (.reset 0) rfl⟩

theorem witness_OnlyRandomReadsTheDraw : ∀ x nn, Instr.jp 0 ≠ .rnd x nn :=
  fun _ _ h => Instr.noConfusion h

/-- A core without protection, with LD B, V0 at 0x200 and I at an address. -/
def storing (i : Word) : State := { unprotectedReset with i := i }.withFetchWord 16 0xF033

/-- A STEP that stores over the last byte of the glyph table, and one that stores past it. -/
theorem test_glyph_premise :
    State.reset.glyphsIntact = true ∧
    runSparesGlyphs [.step] (storing 0x04F) = false ∧
    runSparesGlyphs [.tick, .step] (storing 0x050) = true ∧
    nextIs (step (storing 0x04F)) (fun t => !t.glyphsIntact) = true := by decide

/-- A flagged STEP that changes the byte at 0x000. -/
theorem witness_OnlyResetAndFlaggedStoresReachTheGlyphTable :
    ∃ t, stateAfter (runCommand .step (storing 0)) = some t ∧ t.peek 0 ≠ (storing 0).peek 0 :=
  ⟨_, rfl, by decide⟩

/-- A core that protects low memory, and one that does not with I at the table's two ends. -/
theorem witness_ProtectionMeetsTheGlyphPremise :
    State.reset.cfg.protectLow = true ∧ (storing 0).cfg.protectLow = false ∧
    (storing 0).i.toNat < 0x50 ∧ (storing 0x4F).i.toNat < 0x50 ∧
    Fetches (storing 0) (.ldB 0) ∧ Fetches (storing 0x4F) (.ldB 0) :=
  ⟨by decide, by decide, by decide, by decide,
    ⟨by decide, ⟨by decide, by decide, by decide⟩, by decide⟩,
    ⟨by decide, ⟨by decide, by decide, by decide⟩, by decide⟩⟩

/-- An unprotected core's store just past the table. -/
theorem witness_SparingCommandKeepsTheGlyphTable :
    (storing 0x50).glyphsIntact = true ∧ sparesGlyphs .step (storing 0x50) = true ∧
    ∃ t, stateAfter (runCommand .step (storing 0x50)) = some t :=
  ⟨by decide, by decide, _, rfl⟩

/-- A run with a store, and an error that the driver goes on from. -/
theorem witness_CheckedRunKeepsTheGlyphTable :
    (storing 0x50).glyphsIntact = true ∧
    runSparesGlyphs [.step, .step, .tick] (storing 0x50) = true ∧
    ∃ t, runThrough [.step, .step, .tick] (storing 0x50) = some t :=
  ⟨by decide, by decide, _, rfl⟩

/-- Two listings of one memory, and an address they agree at. -/
theorem witness_CanonicalMemoriesAreEqual :
    Memory.wf Config.default [(0x300, 8), (0xFFF, 7)] = true ∧
    Memory.read Config.default [(0x300, 8), (0xFFF, 7)] 0xFFF = 7 ∧ 0xFFF < 4096 := by decide

end Sys2Proof.Tests
end

section
/-! What RESET leaves in the elements whose value is read through an accessor: memory, the registers,
the pixels. -/

namespace Sys2Proof.Machine

theorem resetByte_glyph (cfg : Config) {a : Nat} (h : a < 80) :
    resetByte cfg a = cfg.glyphTable[a] := dif_pos h

theorem resetByte_above_glyphs (cfg : Config) {a : Nat} (h : 80 ≤ a) : resetByte cfg a = 0 :=
  dif_neg (Nat.not_lt.mpr h)

@[simp] theorem State.getV_resetWith (cfg : Config) (d : Nat) (r : Reg) :
    (State.resetWith cfg d).getV r = 0 := by
  simp [State.getV, State.resetWith]

@[simp] theorem State.stack_resetWith (cfg : Config) (d : Nat) (k : Fin 16) :
    (State.resetWith cfg d).stack[k.val] = 0 := by
  simp [State.resetWith]

@[simp] theorem State.keys_resetWith (cfg : Config) (d : Nat) (k : Reg) :
    (State.resetWith cfg d).keys[k.val] = false := by
  simp [State.resetWith]

@[simp] theorem State.disp_resetWith (cfg : Config) (d : Nat) :
    (State.resetWith cfg d).disp = Screen.blank := rfl

@[simp] theorem runCommand_reset (s : State) :
    runCommand .reset s = .next (State.resetWith s.cfg s.draws) := rfl

/-- Settles O44: memory, the registers, the stack, the pixels and the keys each by its lemma about
`State.resetWith`; the remaining elements are fields of it. -/
theorem resetGivesEveryElementItsValue : Obligations.ResetGivesEveryElementItsValue := by
  intro s
  refine ⟨State.resetWith s.cfg s.draws, runCommand_reset s, ?glyphs, ?glyphByte0, ?zeroAbove,
    State.getV_resetWith _ _, rfl, rfl, State.stack_resetWith _ _, rfl, rfl, rfl, ?pixels,
    State.keys_resetWith _ _, rfl, rfl, rfl⟩
  case glyphs =>
    intro a ha
    rw [State.peek_resetWith, resetByte_glyph s.cfg ha]
  case glyphByte0 =>
    intro hwf
    rw [State.peek_resetWith, resetByte_glyph s.cfg (by decide), hwf]
  case zeroAbove =>
    intro a ha _
    rw [State.peek_resetWith, resetByte_above_glyphs s.cfg ha]
  case pixels =>
    intro px py
    rw [State.disp_resetWith, Screen.pixel_blank]

end Sys2Proof.Machine
end

section
/-! The fetched word in terms of the two bytes it is read from (`30_encoding.md` R71). -/

namespace Sys2Proof.Machine

theorem State.fetchWord_toNat (s : State) (a : Word) :
    (s.fetchWord a).toNat = (s.peek a.toNat).toNat * 256 + (s.peek (a.toNat + 1)).toNat :=
  wordOfBytes_toNat _ _

@[simp] theorem State.highByte_fetchWord (s : State) (a : Word) :
    highByte (s.fetchWord a) = s.peek a.toNat :=
  highByte_wordOfBytes _ _

@[simp] theorem State.lowByte_fetchWord (s : State) (a : Word) :
    lowByte (s.fetchWord a) = s.peek (a.toNat + 1) :=
  lowByte_wordOfBytes _ _

/-- Settles O5: the number, the high byte and the low byte each by its lemma about
`State.fetchWord`. -/
theorem fetchedWordIsBigEndian : Obligations.FetchedWordIsBigEndian := fun s a =>
  ⟨s.fetchWord_toNat a, s.highByte_fetchWord a, s.lowByte_fetchWord a⟩

end Sys2Proof.Machine
end

section
/-! The skips (`40_flow.md` R103 to R107): each is a conditional second advance of the program
counter, `State.skipIf`, on the condition `SkipTaken` names. -/

namespace Sys2Proof

/-! ## The words of the skips -/

theorem acceptUnexamined_of_ignored {strict : Bool} {u : Nibble} {i : Instr} {w : Word}
    (h : strict = false ∨ u = 0) : acceptUnexamined strict u i w = .accepted i := by
  unfold acceptUnexamined
  rcases h with rfl | rfl
  · split <;> rfl
  · exact if_pos rfl

theorem acceptUnexamined_of_strict {u : Nibble} {i : Instr} {w : Word} (h : u ≠ 0) :
    acceptUnexamined true u i w = .rejected (.unknownOpcode w) := if_neg h

theorem decodeWord_group3 (strict : Bool) (x : Reg) (nn : Byte) :
    decodeWord strict (wordRegLit 0x3 x nn) = .accepted (.seImm x nn) := by
  simp [decodeWord]

theorem decodeWord_group4 (strict : Bool) (x : Reg) (nn : Byte) :
    decodeWord strict (wordRegLit 0x4 x nn) = .accepted (.sneImm x nn) := by
  simp [decodeWord]

theorem decodeWord_group5 (strict : Bool) (x y : Reg) (n : Nibble) :
    decodeWord strict (wordRegReg 0x5 x y n) =
      acceptUnexamined strict n (.seReg x y n) (wordRegReg 0x5 x y n) := by
  simp [decodeWord]

theorem decodeWord_group9 (strict : Bool) (x y : Reg) (n : Nibble) :
    decodeWord strict (wordRegReg 0x9 x y n) =
      acceptUnexamined strict n (.sneReg x y n) (wordRegReg 0x9 x y n) := by
  simp [decodeWord]

end Sys2Proof

namespace Sys2Proof.Machine

variable {s t : State} {i : Instr}

/-! ## What a skip does -/

@[simp] theorem exec_seImm (x : Reg) (nn : Byte) (s : State) :
    exec (.seImm x nn) s = .next (s.skipIf (s.getV x == nn)) := rfl

@[simp] theorem exec_sneImm (x : Reg) (nn : Byte) (s : State) :
    exec (.sneImm x nn) s = .next (s.skipIf (s.getV x != nn)) := rfl

@[simp] theorem exec_seReg (x y : Reg) (n : Nibble) (s : State) :
    exec (.seReg x y n) s = .next (s.skipIf (s.getV x == s.getV y)) := rfl

@[simp] theorem exec_sneReg (x y : Reg) (n : Nibble) (s : State) :
    exec (.sneReg x y n) s = .next (s.skipIf (s.getV x != s.getV y)) := rfl

@[simp] theorem State.skipIf_true (s : State) : s.skipIf true = { s with pc := s.pc + 2 } := rfl

@[simp] theorem State.skipIf_false (s : State) : s.skipIf false = s := rfl

theorem State.pc_skipIf_beq (s : State) (a b : Byte) :
    (s.skipIf (a == b)).pc = if a = b then s.pc + 2 else s.pc := by
  simp [State.skipIf_pc]

theorem State.pc_skipIf_bne (s : State) (a b : Byte) :
    (s.skipIf (a != b)).pc = if a = b then s.pc else s.pc + 2 := by
  simp [State.skipIf_pc]

/-- On an index below 16 the key that `SkipTaken` asks for is the one at that index. -/
theorem State.exists_key_iff (s : State) {a : Nat} (ha : a < 16) (level : Bool) :
    (∃ k : Reg, a = k.val ∧ s.keys[k.val] = level) ↔ s.keys[a] = level :=
  ⟨fun ⟨_, hak, hk⟩ => by simpa only [hak] using hk, fun h => ⟨⟨a, ha⟩, rfl, h⟩⟩

/-- A skip instruction that completes makes the second advance exactly when its condition holds. -/
theorem exec_skip_next (hs : IsSkip i) (h : exec i s = .next t) :
    ∃ taken : Bool, t = s.skipIf taken ∧ (taken = true ↔ SkipTaken i s) := by
  cases i
  case seImm x nn => exact ⟨_, (Host.Outcome.next.inj h).symm, beq_iff_eq⟩
  case sneImm x nn => exact ⟨_, (Host.Outcome.next.inj h).symm, bne_iff_ne⟩
  case seReg x y n => exact ⟨_, (Host.Outcome.next.inj h).symm, beq_iff_eq⟩
  case sneReg x y n => exact ⟨_, (Host.Outcome.next.inj h).symm, bne_iff_ne⟩
  case skp x =>
    obtain ⟨hlt, ht⟩ := execSkp_next h
    exact ⟨_, ht, (s.exists_key_iff hlt true).symm⟩
  case sknp x =>
    obtain ⟨hlt, ht⟩ := execSknp_next h
    refine ⟨_, ht, ?_⟩
    rw [Bool.not_eq_true']
    exact (s.exists_key_iff hlt false).symm
  all_goals exact hs.elim

/-- Settles O19: the skip taken and the skip not taken are the two values of `State.skipIf`'s
condition. -/
theorem skipsAddOneWordAndNothingElse : Obligations.SkipsAddOneWordAndNothingElse := by
  intro i s t hs h
  obtain ⟨taken, rfl, htaken⟩ := exec_skip_next hs h
  rw [← htaken]
  cases taken
  case false => exact ⟨fun hf => absurd hf Bool.false_ne_true, fun _ => s.skipIf_false⟩
  case true => exact ⟨fun _ => s.skipIf_true, fun hn => absurd rfl hn⟩

/-- Settles O17: both instructions are `State.skipIf`, which writes the program counter alone. -/
theorem skipsOnLiteral : Obligations.SkipsOnLiteral := fun strict x nn s =>
  ⟨decodeWord_group3 strict x nn, decodeWord_group4 strict x nn,
    ⟨_, exec_seImm x nn s, s.pc_skipIf_beq _ _, s.frame_skipIf _⟩,
    ⟨_, exec_sneImm x nn s, s.pc_skipIf_bne _ _, s.frame_skipIf _⟩⟩

/-- Settles O18: the words by the two answers of `acceptUnexamined`, the instructions as
`State.skipIf`, whose condition is settled when the selectors are equal. -/
theorem skipsOnRegisters : Obligations.SkipsOnRegisters := by
  intro strict x y n s
  have hse := s.pc_skipIf_beq (s.getV x) (s.getV y)
  have hsne := s.pc_skipIf_bne (s.getV x) (s.getV y)
  refine ⟨?accepted, ?rejected,
    ⟨_, exec_seReg x y n s, hse, ?always, s.frame_skipIf _⟩,
    ⟨_, exec_sneReg x y n s, hsne, ?never, s.frame_skipIf _⟩⟩
  case accepted =>
    intro hn
    rw [decodeWord_group5, decodeWord_group9]
    exact ⟨acceptUnexamined_of_ignored hn, acceptUnexamined_of_ignored hn⟩
  case rejected =>
    rintro rfl hn
    rw [decodeWord_group5, decodeWord_group9]
    exact ⟨acceptUnexamined_of_strict hn, acceptUnexamined_of_strict hn⟩
  case always =>
    rintro rfl
    rw [hse, if_pos rfl]
  case never =>
    rintro rfl
    rw [hsne, if_pos rfl]

end Sys2Proof.Machine
end

section
/-! CALL (`40_flow.md` R102): its word, and the state a push and a jump leave. -/

namespace Sys2Proof

theorem decodeWord_group2 (strict : Bool) (nnn : Addr12) :
    decodeWord strict (wordAddr 0x2 nnn) = .accepted (.call nnn) := by
  simp [decodeWord]

@[simp] theorem zext16_addr12_toNat (nnn : Addr12) : (zext16 nnn).toNat = nnn.toNat :=
  BitVec.toNat_setWidth_of_le (by decide)

end Sys2Proof

namespace Sys2Proof.Machine

@[simp] theorem exec_call (nnn : Addr12) (s : State) : exec (.call nnn) s = execCall nnn s := rfl

/-- Settles O15: with room CALL completes as `execCall_of_room` says, the slot written being the
one at SP; on a full stack it raises the fault of `execCall_fault`. -/
theorem callPushesAndJumps : Obligations.CallPushesAndJumps := by
  intro strict nnn s
  refine ⟨decodeWord_group2 strict nnn, ?room, ?full⟩
  case room =>
    intro k hk
    have hroom : s.sp.val < 16 := hk ▸ k.isLt
    refine ⟨_, (exec_call nnn s).trans (execCall_of_room hroom), ?pushed, congrArg (· + 1) hk,
      zext16_addr12_toNat nnn, ?kept, Frame.of_fields (fun _ _ => rfl) rfl⟩
    case pushed => simp [hk]
    case kept =>
      intro j hj
      exact Vector.getElem_set_ne hroom j.isLt fun he => hj (Fin.ext (he.symm.trans hk))
  case full =>
    intro hsp
    rw [exec_call, execCall_fault]
    exact ⟨hsp, rfl⟩

end Sys2Proof.Machine
end

section
/-! The register loads and the 8-bit ALU (`41_alu.md` R131 to R141): each instruction is one
`State.setV`, or one `State.setVWithFlag` where VF is a flag. -/

namespace Sys2Proof

/-! ## Decoding what was encoded -/

/-- The fields of an instruction's word are its operands; unexamined bits pass when `WellFormed`. -/
theorem decodeWord_encode {strict : Bool} {i : Instr} (h : WellFormed strict i = true) :
    decodeWord strict (encode i) = .accepted i := by
  cases i
  case cls u | ret u =>
    have hu : strict = false ∨ u = 0 := by simpa [WellFormed] using h
    simp [decodeWord, decodeGroup0, encode, acceptUnexamined_of_ignored hu]
  case seReg x y u | sneReg x y u =>
    have hu : strict = false ∨ u = 0 := by simpa [WellFormed] using h
    simp [decodeWord, encode, acceptUnexamined_of_ignored hu]
  all_goals simp [decodeWord, decodeGroup8, decodeGroupE, decodeGroupF, encode]

/-! ## A byte difference -/

/-- The difference modulo 256 as an integer's remainder, a borrow included. -/
theorem byte_toNat_sub (a b : Byte) : ((a - b).toNat : Int) = (a.toNat - b.toNat : Int) % 256 := by
  rw [BitVec.toNat_sub]
  omega

end Sys2Proof

namespace Sys2Proof.Machine

/-! ## The flags as numbers -/

theorem flagByte_decide (p : Prop) [Decidable p] : flagByte (decide p) = if p then 1 else 0 := by
  simp [flagByte]

theorem flagByte_addCarry (a b : Byte) :
    flagByte (addCarry a b) = if 255 < a.toNat + b.toNat then 1 else 0 := flagByte_decide _

theorem flagByte_noBorrow (a b : Byte) :
    flagByte (noBorrow a b) = if b.toNat ≤ a.toNat then 1 else 0 := flagByte_decide _

theorem flagByte_shiftedOutRight (a : Byte) :
    flagByte (shiftedOutRight a) = if a.toNat % 2 = 1 then 1 else 0 := by
  rw [shiftedOutRight, BitVec.getLsbD, Nat.testBit_zero, flagByte_decide]

theorem flagByte_shiftedOutLeft (a : Byte) :
    flagByte (shiftedOutLeft a) = if 128 ≤ a.toNat then 1 else 0 := by
  have hmsb : shiftedOutLeft a = a.msb := (BitVec.msb_eq_getLsbD_last a).symm
  rw [hmsb, BitVec.msb_eq_decide, flagByte_decide]

/-! ## The frames of a result and of a result with its flag -/

theorem State.frame_setV (s : State) (x : Reg) (b : Byte) : Frame { regs := [x] } s (s.setV x b) :=
  Frame.of_fields (fun _ hr => s.getV_setV_other b (by simpa using hr)) rfl

theorem State.frame_setVWithFlag (s : State) (x : Reg) (b : Byte) (f : Bool) :
    Frame { regs := [x, VF] } s (s.setVWithFlag x b f) := by
  refine Frame.of_fields (fun r hr => ?_) rfl
  have ⟨hx, hf⟩ : r ≠ x ∧ r ≠ VF := by simpa using hr
  exact s.getV_setVWithFlag_other b f hx hf

/-! ## What each instruction does -/

@[simp] theorem exec_ldImm (x : Reg) (nn : Byte) (s : State) :
    exec (.ldImm x nn) s = .next (s.setV x nn) := rfl

@[simp] theorem exec_addImm (x : Reg) (nn : Byte) (s : State) :
    exec (.addImm x nn) s = .next (s.setV x (s.getV x + nn)) := rfl

@[simp] theorem exec_ldReg (x y : Reg) (s : State) :
    exec (.ldReg x y) s = .next (s.setV x (s.getV y)) := rfl

@[simp] theorem exec_orReg (x y : Reg) (s : State) :
    exec (.orReg x y) s = .next (s.setV x (s.getV x ||| s.getV y)) := rfl

@[simp] theorem exec_andReg (x y : Reg) (s : State) :
    exec (.andReg x y) s = .next (s.setV x (s.getV x &&& s.getV y)) := rfl

@[simp] theorem exec_xorReg (x y : Reg) (s : State) :
    exec (.xorReg x y) s = .next (s.setV x (s.getV x ^^^ s.getV y)) := rfl

@[simp] theorem exec_addReg (x y : Reg) (s : State) :
    exec (.addReg x y) s =
      .next (s.setVWithFlag x (s.getV x + s.getV y) (addCarry (s.getV x) (s.getV y))) := rfl

@[simp] theorem exec_subReg (x y : Reg) (s : State) :
    exec (.subReg x y) s =
      .next (s.setVWithFlag x (s.getV x - s.getV y) (noBorrow (s.getV x) (s.getV y))) := rfl

@[simp] theorem exec_subn (x y : Reg) (s : State) :
    exec (.subn x y) s =
      .next (s.setVWithFlag x (s.getV y - s.getV x) (noBorrow (s.getV y) (s.getV x))) := rfl

@[simp] theorem exec_shr (x y : Reg) (s : State) :
    exec (.shr x y) s =
      .next (s.setVWithFlag x (s.getV x >>> 1) (shiftedOutRight (s.getV x))) := rfl

@[simp] theorem exec_shl (x y : Reg) (s : State) :
    exec (.shl x y) s =
      .next (s.setVWithFlag x (s.getV x <<< 1) (shiftedOutLeft (s.getV x))) := rfl

/-- A byte difference written with its "no borrow" flag, whichever operand is the minuend. -/
theorem State.setVWithFlag_sub (s : State) (x : Reg) (a b : Byte) :
    (s.setVWithFlag x (a - b) (noBorrow a b)).getV VF = (if b.toNat ≤ a.toNat then 1 else 0) ∧
    (x ≠ VF → (((s.setVWithFlag x (a - b) (noBorrow a b)).getV x).toNat : Int) =
      (a.toNat - b.toNat : Int) % 256) ∧
    Frame { regs := [x, VF] } s (s.setVWithFlag x (a - b) (noBorrow a b)) := by
  refine ⟨?flag, fun hx => ?difference, s.frame_setVWithFlag x _ _⟩
  case flag => rw [State.getV_setVWithFlag_VF, flagByte_noBorrow]
  case difference => rw [State.getV_setVWithFlag_dest _ _ _ hx, byte_toNat_sub]

/-! ## The statements -/

/-- Settles O21: both instructions are one `State.setV`. -/
theorem literalLoadAndAdd : Obligations.LiteralLoadAndAdd := by
  intro strict x nn s
  refine ⟨decodeWord_encode (i := .ldImm x nn) rfl, decodeWord_encode (i := .addImm x nn) rfl,
    ⟨_, exec_ldImm x nn s, s.getV_setV_same x _, s.frame_setV x _⟩,
    ⟨_, exec_addImm x nn s, ?sum, s.frame_setV x _⟩⟩
  case sum => rw [State.getV_setV_same, BitVec.toNat_add]

/-- Settles O22: all four instructions are one `State.setV`, of a value read bit by bit. -/
theorem moveAndBitwise : Obligations.MoveAndBitwise := by
  intro strict x y s
  refine ⟨decodeWord_encode (i := .ldReg x y) rfl, decodeWord_encode (i := .orReg x y) rfl,
    decodeWord_encode (i := .andReg x y) rfl, decodeWord_encode (i := .xorReg x y) rfl,
    ⟨_, exec_ldReg x y s, s.getV_setV_same x _, s.frame_setV x _⟩,
    ⟨_, exec_orReg x y s, fun k => ?or, s.frame_setV x _⟩,
    ⟨_, exec_andReg x y s, fun k => ?and, s.frame_setV x _⟩,
    ⟨_, exec_xorReg x y s, fun k => ?xor, s.frame_setV x _⟩⟩
  case or => rw [State.getV_setV_same, BitVec.getLsbD_or]
  case and => rw [State.getV_setV_same, BitVec.getLsbD_and]
  case xor => rw [State.getV_setV_same, BitVec.getLsbD_xor, Bool.bne_eq_xor]

/-- Settles O23: the flag by `flagByte_addCarry`, the result where VF does not overwrite it. -/
theorem addSetsCarry : Obligations.AddSetsCarry := by
  intro strict x y s
  refine ⟨decodeWord_encode (i := .addReg x y) rfl,
    _, exec_addReg x y s, ?carry, fun hx => ?sum, s.frame_setVWithFlag x _ _⟩
  case carry => rw [State.getV_setVWithFlag_VF, flagByte_addCarry]
  case sum => rw [State.getV_setVWithFlag_dest _ _ _ hx, BitVec.toNat_add]

/-- Settles O24: SUB and SUBN are `State.setVWithFlag_sub` with the operands in either order. -/
theorem subtractSetsNoBorrow : Obligations.SubtractSetsNoBorrow := fun _ x y s =>
  ⟨decodeWord_encode (i := .subReg x y) rfl, decodeWord_encode (i := .subn x y) rfl,
    ⟨_, exec_subReg x y s, s.setVWithFlag_sub x _ _⟩,
    ⟨_, exec_subn x y s, s.setVWithFlag_sub x _ _⟩⟩

/-- Settles O25: the flags by `flagByte_shiftedOutRight` and `flagByte_shiftedOutLeft`, the halved
and the doubled value where VF does not overwrite them. -/
theorem shiftsByOneBit : Obligations.ShiftsByOneBit := by
  intro strict x y s
  refine ⟨decodeWord_encode (i := .shr x y) rfl, decodeWord_encode (i := .shl x y) rfl,
    ⟨_, exec_shr x y s, ?bit0, fun hx => ?half, s.frame_setVWithFlag x _ _⟩,
    ⟨_, exec_shl x y s, ?bit7, fun hx => ?double, s.frame_setVWithFlag x _ _⟩⟩
  case bit0 => rw [State.getV_setVWithFlag_VF, flagByte_shiftedOutRight]
  case half => rw [State.getV_setVWithFlag_dest _ _ _ hx, BitVec.toNat_ushiftRight,
    Nat.shiftRight_one]
  case bit7 => rw [State.getV_setVWithFlag_VF, flagByte_shiftedOutLeft]
  case double => rw [State.getV_setVWithFlag_dest _ _ _ hx, BitVec.toNat_shiftLeft,
    Nat.shiftLeft_eq]

end Sys2Proof.Machine
end

section
/-! The index register instructions (`42_index_memory.md` R160 to R162): each is one `State.setI`. -/

namespace Sys2Proof

@[simp] theorem zext16_byte_toNat (b : Byte) : (zext16 b).toNat = b.toNat :=
  BitVec.toNat_setWidth_of_le (by decide)

end Sys2Proof

namespace Sys2Proof.Machine

theorem State.frame_setI (s : State) (w : Word) : Frame { index := true } s (s.setI w) :=
  Frame.of_fields (fun r _ => s.getV_setI w r) rfl

@[simp] theorem exec_ldI (nnn : Addr12) (s : State) :
    exec (.ldI nnn) s = .next (s.setI (zext16 nnn)) := rfl

@[simp] theorem exec_addI (x : Reg) (s : State) :
    exec (.addI x) s = .next (s.setI (s.i + zext16 (s.getV x))) := rfl

@[simp] theorem exec_ldF (x : Reg) (s : State) :
    exec (.ldF x) s = .next (s.setI (BitVec.ofNat 16 ((s.getV x).toNat * 5))) := rfl

/-- A glyph's offset fits the index register: at most 255 times 5. -/
theorem glyphOffset_toNat (b : Byte) : (BitVec.ofNat 16 (b.toNat * 5)).toNat = b.toNat * 5 := by
  have hb : b.toNat < 256 := b.isLt
  rw [BitVec.toNat_ofNat]
  exact Nat.mod_eq_of_lt (by omega)

/-- Settles O28: all three instructions are one `State.setI`; the sum is the machine's own 16-bit
addition, and the product never wraps (`glyphOffset_toNat`). -/
theorem indexRegisterUpdates : Obligations.IndexRegisterUpdates := by
  intro strict x nnn s
  refine ⟨decodeWord_encode (i := .ldI nnn) rfl, decodeWord_encode (i := .addI x) rfl,
    decodeWord_encode (i := .ldF x) rfl,
    ⟨_, exec_ldI nnn s, zext16_addr12_toNat nnn, s.frame_setI _⟩,
    ⟨_, exec_addI x s, ?sum, s.frame_setI _⟩,
    ⟨_, exec_ldF x s, glyphOffset_toNat (s.getV x), s.frame_setI _⟩⟩
  case sum => rw [State.setI_i, BitVec.toNat_add, zext16_byte_toNat]

end Sys2Proof.Machine
end

section
/-! CLS (`43_display.md` R190): its words, and the blank screen it leaves. -/

namespace Sys2Proof

/-- With x zero the word is legal under both settings. -/
theorem decodeWord_cls_zero (strict : Bool) : decodeWord strict 0x00E0 = .accepted (.cls 0) :=
  have hwf : WellFormed strict (.cls 0) = true := by simp [WellFormed]
  decodeWord_encode hwf

theorem encode_cls (u : Reg) : encode (.cls (regBits u)) = wordRegLit 0x0 u 0xE0 := rfl

/-- Without `STRICT_DECODE` the x field is kept and not examined. -/
theorem decodeWord_cls_lenient (u : Reg) :
    decodeWord false (wordRegLit 0x0 u 0xE0) = .accepted (.cls (regBits u)) := by
  have hwf : WellFormed false (.cls (regBits u)) = true := rfl
  rw [← encode_cls, decodeWord_encode hwf]

end Sys2Proof

namespace Sys2Proof.Machine

@[simp] theorem exec_cls (u : Nibble) (s : State) :
    exec (.cls u) s = .next { s with disp := Screen.blank, redrawPending := true } := rfl

/-- Settles O34: the words as `decodeWord` reads them back from `encode`; every pixel of the screen
left is one of `Screen.blank`, and the redraw flag is set whatever it was. -/
theorem clearScreenBlanksEveryPixel : Obligations.ClearScreenBlanksEveryPixel := fun strict s =>
  ⟨decodeWord_cls_zero strict, decodeWord_cls_lenient,
    fun u => ⟨_, exec_cls u s, Screen.pixel_blank, rfl, Frame.of_fields (fun _ _ => rfl) rfl⟩⟩

end Sys2Proof.Machine
end

section
/-! The timer registers (`44_timers_keys.md` R212, R214, R215): what the three instructions write, and
that LD DT, Vx is the one writer of DT among the steps. -/

namespace Sys2Proof.Machine

variable {s t : State} {i : Instr}

/-! ## What each instruction does -/

@[simp] theorem exec_ldVxDT (x : Reg) (s : State) :
    exec (.ldVxDT x) s = .next (s.setV x s.dt) := rfl

@[simp] theorem exec_ldDT (x : Reg) (s : State) :
    exec (.ldDT x) s = .next { s with dt := s.getV x } := rfl

@[simp] theorem exec_ldST (x : Reg) (s : State) :
    exec (.ldST x) s = .next { s with st := s.getV x } := rfl

/-! ## The writer of DT -/

/-- An instruction that completes keeps DT, unless it is LD DT, Vx. -/
theorem exec_dt (hi : ∀ x, i ≠ .ldDT x) (h : exec i s = .next t) : t.dt = s.dt := by
  cases i
  case ldDT x => exact absurd rfl (hi x)
  case ret => obtain ⟨-, -, rfl⟩ := execRet_next h; rfl
  case call => obtain ⟨-, rfl⟩ := execCall_next h; rfl
  case seImm | sneImm | seReg | sneReg | skp | sknp =>
    obtain ⟨taken, rfl, -⟩ := exec_skip_next (by trivial) h
    exact s.skipIf_dt taken
  case drw => obtain ⟨-, rfl⟩ := execDrw_next.mp h; rfl
  case ldB => obtain ⟨-, rfl⟩ := execLdB_next.mp h; rfl
  case storeRegs => obtain ⟨-, rfl⟩ := execStoreRegs_next.mp h; rfl
  case loadRegs =>
    obtain ⟨-, rfl⟩ := execLoadRegs_next.mp h
    exact (s.frame_loadV _).dt rfl
  all_goals obtain rfl := Host.Outcome.next.inj h; rfl

/-- A step that completes is the stall of the key wait, or runs the instruction it fetches. -/
theorem step_next_fetches (h : step s = .next t) :
    (s.awaitingKey = true ∧ t = s) ∨ ∃ i, Fetches s i ∧ exec i s.advance = .next t := by
  obtain hwait | ⟨hawake, hfetch, i, hword, hexec⟩ := step_next h
  · exact .inl hwait
  · exact .inr ⟨i, ⟨hawake, fetchOk_iff.mpr hfetch, hword⟩, hexec⟩

/-- A step keeps DT, unless it runs LD DT, Vx; the advance before the instruction keeps it too. -/
theorem step_dt (h : step s = .next t) (hn : ∀ y, ¬Fetches s (.ldDT y)) : t.dt = s.dt := by
  obtain ⟨-, rfl⟩ | ⟨i, hi, hexec⟩ := step_next_fetches h
  · rfl
  · have hne : ∀ y, i ≠ .ldDT y := fun y hy => hn y (hy ▸ hi)
    exact (exec_dt hne hexec).trans s.advance_dt

/-- Settles O38: LD Vx, DT is one `State.setV`, the other two write one timer each, and a step keeps
DT by `step_dt`. -/
theorem timerRegistersReadAndWritten : Obligations.TimerRegistersReadAndWritten := fun _ x s =>
  ⟨decodeWord_encode (i := .ldVxDT x) rfl, decodeWord_encode (i := .ldDT x) rfl,
    decodeWord_encode (i := .ldST x) rfl,
    ⟨_, exec_ldVxDT x s, s.getV_setV_same x _, s.frame_setV x _⟩,
    ⟨_, exec_ldDT x s, rfl, Frame.of_fields (fun _ _ => rfl) rfl⟩,
    ⟨_, exec_ldST x s, rfl, rfl, Frame.of_fields (fun _ _ => rfl) rfl⟩,
    fun _ => step_dt⟩

end Sys2Proof.Machine
end

section
/-! What each instruction writes, and that its completion changes nothing else: one frame for the whole
of `exec`, from which the frame of a single element is read off. -/

namespace Sys2Proof.Machine

variable {s t : State} {i : Instr}

/-- What an instruction may write when it completes: the destinations and flags of `41_alu.md` to
`44_timers_keys.md`, PC for a control transfer (`40_flow.md`), and the range it stores. -/
def instrWrites (i : Instr) (s : State) : Writes :=
  match i with
  | .cls _ => { screen := true }
  | .ret _ | .call _ => { pc := true, stack := true }
  | .jp _ | .jpV0 _ | .seImm _ _ | .sneImm _ _ | .seReg _ _ _ | .sneReg _ _ _ | .skp _
  | .sknp _ => { pc := true }
  | .ldImm x _ | .addImm x _ | .ldReg x _ | .orReg x _ | .andReg x _ | .xorReg x _
  | .ldVxDT x => { regs := [x] }
  | .addReg x _ | .subReg x _ | .shr x _ | .subn x _ | .shl x _ => { regs := [x, VF] }
  | .rnd x _ => { regs := [x], draws := true }
  | .drw _ _ _ => { regs := [VF], screen := true }
  | .ldI _ | .addI _ | .ldF _ => { index := true }
  | .ldVxK _ => { keyWait := true }
  | .ldDT _ => { dt := true }
  | .ldST _ => { st := true }
  | .ldB _ => { lo := s.effAddr 0, len := 3 }
  | .storeRegs x => { lo := s.effAddr 0, len := x.val + 1 }
  | .loadRegs x => { regs := (List.finRange 16).filter (·.val < x.val + 1) }

/-- An instruction that completes changes nothing but what `instrWrites` names. -/
theorem exec_frame (h : exec i s = .next t) : Frame (instrWrites i s) s t := by
  cases i
  case ret => obtain ⟨-, -, rfl⟩ := execRet_next h; exact Frame.of_fields (fun _ _ => rfl) rfl
  case call => obtain ⟨-, rfl⟩ := execCall_next h; exact Frame.of_fields (fun _ _ => rfl) rfl
  case seImm | sneImm | seReg | sneReg | skp | sknp =>
    obtain ⟨taken, rfl, -⟩ := exec_skip_next (by trivial) h
    exact s.frame_skipIf taken
  case drw x y n => obtain ⟨-, rfl⟩ := execDrw_next.mp h; exact s.frame_drawn x y n
  case ldB x =>
    obtain ⟨-, rfl⟩ := execLdB_next.mp h
    exact s.frame_pokeRun _ (bcdDigits (s.getV x))
  case storeRegs x =>
    obtain ⟨-, rfl⟩ := execStoreRegs_next.mp h
    have hframe := s.frame_pokeRun (s.effAddr 0) (s.regsUpTo x)
    rwa [State.regsUpTo_length] at hframe
  case loadRegs x => obtain ⟨-, rfl⟩ := execLoadRegs_next.mp h; exact s.frame_loadV _
  all_goals obtain rfl := Host.Outcome.next.inj h
  case ldImm | addImm | ldReg | orReg | andReg | xorReg | ldVxDT => exact s.frame_setV _ _
  case addReg | subReg | shr | subn | shl => exact s.frame_setVWithFlag _ _ _
  case rnd x nn =>
    exact Frame.of_fields (fun r hr => s.getV_setV_other _ (by simpa [instrWrites] using hr)) rfl
  case ldI | addI | ldF => exact s.frame_setI _
  case cls | jp | jpV0 | ldVxK | ldDT | ldST => exact Frame.of_fields (fun _ _ => rfl) rfl

/-- LD Vx, K is the one instruction whose writes name the key wait. -/
theorem instrWrites_keyWait (hi : ∀ x, i ≠ .ldVxK x) (s : State) :
    (instrWrites i s).keyWait = false := by
  cases i
  case ldVxK x => exact absurd rfl (hi x)
  all_goals rfl

end Sys2Proof.Machine
end

section
/-! TICK (`60_exceptions.md` R240): the two timers counted down. -/

namespace Sys2Proof.Machine

@[simp] theorem runCommand_tick (s : State) : runCommand .tick s = .next (tickCommand s) := rfl

/-- Counting down is subtraction of natural numbers, which saturates at zero too. -/
theorem countDown_toNat (b : Byte) : (countDown b).toNat = b.toNat - 1 := by
  unfold countDown
  split <;> bv_omega

/-- Settles O40: the state TICK leaves is `tickCommand`'s, each timer in it by `countDown_toNat`. -/
theorem tickCountsBothTimersDown : Obligations.TickCountsBothTimersDown := fun s =>
  ⟨tickCommand s, runCommand_tick s, countDown_toNat s.dt, countDown_toNat s.st, rfl⟩

end Sys2Proof.Machine
end

section
/-! The key wait (`60_exceptions.md` R250) under each command: who begins it, who ends it, and that the
commands with no part in it do the same during it as outside it. -/

namespace Sys2Proof.Machine

variable {c : Command} {s t : State}

/-! ## STEP -/

/-- A step that begins a wait runs LD Vx, K: every other instruction keeps the key wait. -/
theorem step_begins_wait (h : step s = .next t) (hs : s.awaitingKey = false)
    (ht : t.awaitingKey = true) : ∃ x, Fetches s (.ldVxK x) := by
  obtain ⟨hwait, -⟩ | ⟨i, hi, hexec⟩ := step_next_fetches h
  · simp [hs] at hwait
  · by_contra hnone
    have hne : ∀ x, i ≠ .ldVxK x := fun x hx => hnone ⟨x, hx ▸ hi⟩
    obtain ⟨hkept, -⟩ := (exec_frame hexec).keyWait (instrWrites_keyWait hne _)
    simp [hkept, hs] at ht

/-- A step during a wait changes nothing. -/
theorem step_in_wait (h : step s = .next t) (hs : s.awaitingKey = true) : t = s := by
  obtain ⟨-, ht⟩ | ⟨i, hi, -⟩ := step_next_fetches h
  · exact ht
  · simp [hi.awake] at hs

/-! ## SETKEY -/

/-- A press ends a wait; a release does not, and neither begins one. -/
theorem resolveKeyWait_awaitingKey (k : Reg) (pressed : Bool) (s : State) :
    (resolveKeyWait k pressed s).awaitingKey = (s.awaitingKey && !pressed) := by
  unfold resolveKeyWait
  cases hs : s.awaitingKey <;> cases pressed <;> simp [hs]

/-- SETKEY keeps the key wait, or leaves none by a press of a key 0 to 15. -/
theorem setKeyCommand_awaitingKey (index : Int) (pressed : Bool) (s : State) :
    (setKeyCommand index pressed s).awaitingKey = s.awaitingKey ∨
      (setKeyCommand index pressed s).awaitingKey = false ∧ pressed = true ∧
        ∃ k : Reg, index = k.val := by
  by_cases hin : 0 ≤ index ∧ index ≤ 15
  · obtain ⟨k, rfl⟩ : ∃ k : Reg, index = k.val := ⟨⟨index.toNat, by omega⟩, by simp; omega⟩
    rw [setKeyCommand_inside, resolveKeyWait_awaitingKey]
    cases pressed
    · exact .inl (Bool.and_true _)
    · exact .inr ⟨Bool.and_false _, rfl, k, rfl⟩
  · rw [setKeyCommand_outside (by omega)]
    exact .inl rfl

/-! ## Every command -/

/-- TICK, CLEAR_REDRAW and LOAD do during a wait what they do outside one, and leave it as it was. -/
theorem runCommand_ignores_wait (h : runCommand c s = .next t) (hreset : c ≠ .reset)
    (hstep : c ≠ .step) (hkey : ∀ index p, c ≠ .setKey index p) :
    ∃ u, runCommand c { s with awaitingKey := false } = .next u ∧
      t = { u with awaitingKey := s.awaitingKey } := by
  cases c
  case reset => exact absurd rfl hreset
  case step => exact absurd rfl hstep
  case setKey index p => exact absurd rfl (hkey index p)
  case load bytes =>
    obtain ⟨hfits, rfl⟩ := loadCommand_next.mp h
    exact ⟨_, loadCommand_next.mpr ⟨hfits, rfl⟩, rfl⟩
  case tick | clearRedraw =>
    obtain rfl := Host.Outcome.next.inj h
    exact ⟨_, rfl, rfl⟩

/-- Every command but STEP keeps the key wait, or leaves none: RESET, or a press of a key 0 to 15. -/
theorem runCommand_awaitingKey (h : runCommand c s = .next t) :
    t.awaitingKey = s.awaitingKey ∨ c = .step ∨
      t.awaitingKey = false ∧ (c = .reset ∨ ∃ k : Reg, c = .setKey k.val true) := by
  cases c
  case step => exact .inr (.inl rfl)
  case load bytes =>
    obtain ⟨-, rfl⟩ := loadCommand_next.mp h
    exact .inl rfl
  all_goals obtain rfl := Host.Outcome.next.inj h
  case reset => exact .inr (.inr ⟨rfl, .inl rfl⟩)
  case setKey index pressed =>
    obtain hkept | ⟨hended, rfl, k, rfl⟩ := setKeyCommand_awaitingKey index pressed s
    · exact .inl hkept
    · exact .inr (.inr ⟨hended, .inr ⟨k, rfl⟩⟩)
  case tick | clearRedraw => exact .inl rfl

/-- Settles O46: a wait begins and ends as `runCommand_awaitingKey` allows, STEP's share in it by
`step_begins_wait` and `step_in_wait`, and the other commands are blind to it by
`runCommand_ignores_wait`. -/
theorem keyWaitIsEnteredAndLeftOnlySo : Obligations.KeyWaitIsEnteredAndLeftOnlySo := by
  intro c s t h
  have hwait := runCommand_awaitingKey h
  refine ⟨?begins, ?ends, ?stalls, runCommand_ignores_wait h⟩
  case begins =>
    intro hs ht
    obtain hkept | rfl | ⟨hended, -⟩ := hwait
    · simp [hkept, hs] at ht
    · exact ⟨rfl, step_begins_wait h hs ht⟩
    · simp [hended] at ht
  case ends =>
    intro hs ht
    obtain hkept | rfl | ⟨-, hby⟩ := hwait
    · simp [hkept, hs] at ht
    · simp [step_in_wait h hs, hs] at ht
    · exact hby
  case stalls =>
    rintro hs rfl
    exact step_in_wait h hs

end Sys2Proof.Machine
end

section
/-! LOAD (`70_reset_and_hazards.md` R273, R274): a program that fits is copied, a longer one refused. -/

namespace Sys2Proof.Machine

variable {bytes : List Byte}

/-- A program longer than the memory from 0x200 on faults, and the state is untouched. -/
theorem loadCommand_oversize (h : maxProgram < bytes.length) (s : State) :
    loadCommand bytes s = .fault (.oversizeProgram 0 s) := if_pos h

/-- Settles O43: a program that fits is one `State.pokeRun` at 0x200, read inside and outside the run;
a longer one is `loadCommand_oversize`. -/
theorem loadCopiesOrFails : Obligations.LoadCopiesOrFails := by
  intro bytes s
  refine ⟨fun hfits => ⟨s.pokeRun programStart bytes, ?completes, ?inside, ?outside, rfl⟩,
    fun hlong => loadCommand_oversize hlong s⟩
  case completes => exact loadCommand_next.mpr ⟨hfits, rfl⟩
  case inside => exact fun _ hk => s.peek_pokeRun_at programStart bytes hk
  case outside => exact fun _ ha => s.peek_pokeRun_outside programStart bytes ha

end Sys2Proof.Machine
end

section
/-! The decoder and the encoder as inverses of each other, and the words the decoder rejects
(`30_encoding.md` R74 to R79, R85). -/

namespace Sys2Proof

variable {strict : Bool} {w : Word} {i : Instr}

/-! ## From an instruction to its word and back -/

theorem decodeBytes_encodeBytes (h : WellFormed strict i = true) (rest : List Byte) :
    decodeBytes strict (encodeBytes i ++ rest) = .accepted (i, rest) := by
  rw [encodeBytes, List.cons_append, List.singleton_append, decodeBytes_word, decodeWord_encode h]

/-- Settles O2: the word by `decodeWord_encode`, the bytes by the word they make. -/
theorem decodeOfEncodeIsTheInstruction : Obligations.DecodeOfEncodeIsTheInstruction :=
  fun _ _ hwf => ⟨decodeWord_encode hwf, decodeBytes_encodeBytes hwf⟩

/-! ## From a word to its instruction and back -/

theorem wordAddr_of_fieldG {g : Nibble} (hg : fieldG w = g) : wordAddr g (fieldNNN w) = w :=
  hg ▸ wordAddr_fields w

theorem wordRegLit_of_fieldG {g : Nibble} (hg : fieldG w = g) :
    wordRegLit g (fieldX w) (fieldNN w) = w := hg ▸ wordRegLit_fields w

theorem wordRegReg_of_fieldG {g : Nibble} (hg : fieldG w = g) :
    wordRegReg g (fieldX w) (fieldY w) (fieldN w) = w := hg ▸ wordRegReg_fields w

/-- An instruction with unexamined bits is accepted only where `WellFormed` allows them. -/
theorem acceptUnexamined_wellFormed {u : Nibble} {j : Instr}
    (h : acceptUnexamined strict u i w = .accepted j) (hw : encode i = w)
    (hwf : strict = false ∨ u = 0 → WellFormed strict i = true) :
    encode j = w ∧ WellFormed strict j = true := by
  obtain ⟨rfl, hu⟩ := acceptUnexamined_accepted h
  exact ⟨hw, hwf hu⟩

theorem decodeGroup0_accepted (hg : fieldG w = 0x0) (h : decodeGroup0 strict w = .accepted i) :
    encode i = w ∧ WellFormed strict i = true := by
  have hword := wordRegLit_of_fieldG hg
  unfold decodeGroup0 at h
  split at h
  case h_1 hnn | h_2 hnn =>
    refine acceptUnexamined_wellFormed h (by rwa [hnn] at hword) fun hu => ?_
    simpa [WellFormed] using hu
  case h_3 => cases h

theorem decodeGroup8_accepted (hg : fieldG w = 0x8) (h : decodeGroup8 w = .accepted i) :
    encode i = w ∧ WellFormed strict i = true := by
  have hword := wordRegReg_of_fieldG hg
  unfold decodeGroup8 at h
  split at h <;> cases h
  all_goals rename_i hn; rw [hn] at hword; exact ⟨hword, rfl⟩

theorem decodeGroupE_accepted (hg : fieldG w = 0xE) (h : decodeGroupE w = .accepted i) :
    encode i = w ∧ WellFormed strict i = true := by
  have hword := wordRegLit_of_fieldG hg
  unfold decodeGroupE at h
  split at h <;> cases h
  all_goals rename_i hnn; rw [hnn] at hword; exact ⟨hword, rfl⟩

theorem decodeGroupF_accepted (hg : fieldG w = 0xF) (h : decodeGroupF w = .accepted i) :
    encode i = w ∧ WellFormed strict i = true := by
  have hword := wordRegLit_of_fieldG hg
  unfold decodeGroupF at h
  split at h <;> cases h
  all_goals rename_i hnn; rw [hnn] at hword; exact ⟨hword, rfl⟩

/-- A word that decodes is the word of a well-formed instruction, group by group. -/
theorem encode_of_decodeWord (h : decodeWord strict w = .accepted i) :
    encode i = w ∧ WellFormed strict i = true := by
  unfold decodeWord at h
  split at h
  case h_1 hg => exact decodeGroup0_accepted hg h
  case h_9 hg => exact decodeGroup8_accepted hg h
  case h_15 hg => exact decodeGroupE_accepted hg h
  case h_6 hg | h_10 hg =>
    exact acceptUnexamined_wellFormed h (wordRegReg_of_fieldG hg) fun hu => by
      simpa [WellFormed] using hu
  case h_16 =>
    have hg : fieldG w = 0xF := by apply group_eq_15 <;> assumption
    exact decodeGroupF_accepted hg h
  all_goals obtain rfl := Decoded.accepted.inj h
  case h_2 hg | h_3 hg | h_11 hg | h_12 hg => exact ⟨wordAddr_of_fieldG hg, rfl⟩
  case h_4 hg | h_5 hg | h_7 hg | h_8 hg | h_13 hg => exact ⟨wordRegLit_of_fieldG hg, rfl⟩
  case h_14 hg => exact ⟨wordRegReg_of_fieldG hg, rfl⟩

/-- Settles O3: every branch of the decoder reads an instruction whose operands are the word's own
fields. -/
theorem legalWordsEncodeBack : Obligations.LegalWordsEncodeBack :=
  fun _ _ _ => encode_of_decodeWord

end Sys2Proof

namespace Sys2Proof.Machine

variable {strict : Bool} {w : Word} {i : Instr}

/-! ## The illegal words -/

/-- The illegal words read off the fields of the word. -/
theorem illegalWord_iff : IllegalWord strict w ↔
    (fieldG w = 0x0 ∧ (fieldNN w ∉ [0xE0, 0xEE] ∨ (strict = true ∧ fieldX w ≠ 0))) ∨
    (fieldG w = 0x8 ∧ fieldN w ∈ [0x8, 0x9, 0xA, 0xB, 0xC, 0xD, 0xF]) ∨
    (fieldG w = 0xE ∧ fieldNN w ∉ [0x9E, 0xA1]) ∨
    (fieldG w = 0xF ∧ fieldNN w ∉ [0x07, 0x0A, 0x15, 0x18, 0x1E, 0x29, 0x33, 0x55, 0x65]) ∨
    (strict = true ∧ (fieldG w = 0x5 ∨ fieldG w = 0x9) ∧ fieldN w ≠ 0) := by
  simp only [IllegalWord, ← fieldG_toNat, ← fieldX_val, ← fieldN_toNat, ← fieldNN_toNat]
  simp only [List.mem_cons, List.not_mem_nil, or_false, ne_eq, BitVec.toNat_eq, Fin.ext_iff]
  rfl

/-- No word of a well-formed instruction is on the list. -/
theorem not_illegalWord_encode (h : WellFormed strict i = true) :
    ¬IllegalWord strict (encode i) := by
  rw [illegalWord_iff]
  cases i
  case cls u | ret u | seReg x y u | sneReg x y u =>
    have hu : strict = false ∨ u = 0 := by simpa [WellFormed] using h
    obtain rfl | rfl := hu <;> simp [encode]
  all_goals simp [encode]

theorem decodeGroup0_rejected {e : DecodeError} (h : decodeGroup0 strict w = .rejected e) :
    fieldNN w ∉ [0xE0, 0xEE] ∨ (strict = true ∧ fieldX w ≠ 0) := by
  unfold decodeGroup0 at h
  split at h
  case h_1 | h_2 =>
    obtain ⟨-, hstrict, hx⟩ := acceptUnexamined_rejected h
    exact .inr ⟨hstrict, fun h0 => hx (congrArg regBits h0)⟩
  case h_3 => exact .inl (by simp_all)

theorem decodeGroup8_rejected {e : DecodeError} (h : decodeGroup8 w = .rejected e) :
    fieldN w ∈ [0x8, 0x9, 0xA, 0xB, 0xC, 0xD, 0xF] := by
  unfold decodeGroup8 at h
  split at h
  case h_10 =>
    generalize fieldN w = n at *
    revert n
    decide
  all_goals cases h

theorem decodeGroupE_rejected {e : DecodeError} (h : decodeGroupE w = .rejected e) :
    fieldNN w ∉ [0x9E, 0xA1] := by
  unfold decodeGroupE at h
  split at h
  case h_3 => simp_all
  all_goals cases h

theorem decodeGroupF_rejected {e : DecodeError} (h : decodeGroupF w = .rejected e) :
    fieldNN w ∉ [0x07, 0x0A, 0x15, 0x18, 0x1E, 0x29, 0x33, 0x55, 0x65] := by
  unfold decodeGroupF at h
  split at h
  case h_10 => simp_all
  all_goals cases h

/-- A rejection comes from one of the dispatches the list names, or from unexamined bits. -/
theorem illegalWord_of_rejected {e : DecodeError} (h : decodeWord strict w = .rejected e) :
    IllegalWord strict w := by
  rw [illegalWord_iff]
  unfold decodeWord at h
  split at h
  case h_1 hg => exact .inl ⟨hg, decodeGroup0_rejected h⟩
  case h_9 hg => exact .inr (.inl ⟨hg, decodeGroup8_rejected h⟩)
  case h_15 hg => exact .inr (.inr (.inl ⟨hg, decodeGroupE_rejected h⟩))
  case h_16 =>
    have hg : fieldG w = 0xF := by apply group_eq_15 <;> assumption
    exact .inr (.inr (.inr (.inl ⟨hg, decodeGroupF_rejected h⟩)))
  case h_6 hg =>
    obtain ⟨-, hstrict, hn⟩ := acceptUnexamined_rejected h
    exact .inr (.inr (.inr (.inr ⟨hstrict, .inl hg, hn⟩)))
  case h_10 hg =>
    obtain ⟨-, hstrict, hn⟩ := acceptUnexamined_rejected h
    exact .inr (.inr (.inr (.inr ⟨hstrict, .inr hg, hn⟩)))
  all_goals cases h

/-- A word on the list is no instruction's, so the decoder rejects it. -/
theorem decodeWord_of_illegalWord (h : IllegalWord strict w) :
    decodeWord strict w = .rejected (.unknownOpcode w) := by
  cases hdecode : decodeWord strict w with
  | accepted i =>
    obtain ⟨rfl, hwf⟩ := encode_of_decodeWord hdecode
    exact absurd h (not_illegalWord_encode hwf)
  | rejected e => rw [decodeWord_rejected hdecode]

/-- Settles O4: a rejected word is on the list by `illegalWord_of_rejected`, a word on it is rejected by
`decodeWord_of_illegalWord`. -/
theorem rejectedWordsAreExactlyTheIllegal : Obligations.RejectedWordsAreExactlyTheIllegal := by
  intro strict w
  refine ⟨decodeWord_of_illegalWord, fun hlegal => ?_⟩
  cases hdecode : decodeWord strict w with
  | accepted i => exact ⟨i, rfl⟩
  | rejected e => exact absurd (illegalWord_of_rejected hdecode) hlegal

/-- Settles O1: nine of the words are encodings of their instructions, and the tenth is on the list of
illegal words. -/
theorem specWordsDecode : Obligations.SpecWordsDecode := by
  refine ⟨decodeWord_encode (i := .cls 0) rfl, decodeWord_encode (i := .ret 0) rfl,
    decodeWord_encode (i := .call 0xABC) rfl, decodeWord_encode (i := .seImm 10 0x5C) rfl,
    decodeWord_encode (i := .seReg 10 11 0) rfl, decodeWord_encode (i := .subReg 10 11) rfl,
    decodeWord_encode (i := .drw 10 11 0xC) rfl, decodeWord_encode (i := .skp 10) rfl,
    decodeWord_encode (i := .ldB 10) rfl, decodeWord_of_illegalWord ?_⟩
  simp [IllegalWord]

end Sys2Proof.Machine
end

section
/-! The faults of the instructions: what a checked range raises, and every way `exec` can answer a fault
(`60_exceptions.md` R232; `20_memory.md` R56 to R58). -/

namespace Sys2Proof.Machine

variable {s t done : State} {base n : Nat} {cfg : Config} {f : Fault} {i : Instr}

/-! ## Checked ranges -/

theorem readErrors_eq_none (h : n = 0 ∨ base + (n - 1) ≤ 0xFFF) :
    ∀ k, k < n → readError (base + k) = none :=
  fun k hk => readError_eq_none.mpr (by omega)

theorem writeErrors_eq_none (h : base + (n - 1) ≤ 0xFFF)
    (hlow : cfg.protectLow = true → 0x200 ≤ base) :
    ∀ k, k < n → writeError cfg (base + k) = none :=
  fun k hk => writeError_eq_none.mpr ⟨by omega, fun hp => (hlow hp).trans (Nat.le_add_right _ k)⟩

/-- A range of reads fails exactly when it is not empty and ends above 0xFFF. -/
theorem guarded_readError_fault :
    guarded readError base n s done = .fault f ↔
      0 < n ∧ 0xFFF < base + (n - 1) ∧ f = .memoryOutOfRange (max base 0x1000) s := by
  simp only [guarded_eq_fault, readError_eq_none, readError_eq_some]
  constructor
  · rintro ⟨k, e, hk, ⟨habove, rfl⟩, hbelow, rfl⟩
    have hprev := hbelow (k - 1)
    rw [show base + k = max base 0x1000 by omega]
    exact ⟨by omega, by omega, rfl⟩
  · rintro ⟨hn, habove, rfl⟩
    refine ⟨max base 0x1000 - base, _, by omega, ⟨by omega, rfl⟩, fun j hj => by omega, ?_⟩
    rw [Nat.add_sub_cancel' (Nat.le_max_left ..)]

/-- A short range of writes fails exactly when it begins in protected memory, or ends above 0xFFF. -/
theorem guarded_writeError_fault (hn : 0 < n) (hshort : n ≤ 16) :
    guarded (writeError cfg) base n s done = .fault f ↔
      (base < 0x200 ∧ cfg.protectLow = true ∧ f = .protectedWrite base s) ∨
        (0xFFF < base + (n - 1) ∧ f = .memoryOutOfRange (max base 0x1000) s) := by
  simp only [guarded_eq_fault, writeError_eq_none, writeError_eq_some]
  constructor
  · rintro ⟨k, e, hk, ⟨habove, rfl⟩ | ⟨hlow, hprotect, rfl⟩, hbelow, rfl⟩
    · have hprev := hbelow (k - 1)
      rw [show base + k = max base 0x1000 by omega]
      exact .inr ⟨by omega, rfl⟩
    · obtain rfl : k = 0 := by
        by_contra hk0
        have := (hbelow 0 (by omega)).2 hprotect
        omega
      exact .inl ⟨hlow, hprotect, rfl⟩
  · rintro (⟨hlow, hprotect, rfl⟩ | ⟨habove, rfl⟩)
    · exact ⟨0, _, hn, .inr ⟨hlow, hprotect, rfl⟩, fun j hj => by omega, rfl⟩
    · refine ⟨max base 0x1000 - base, _, by omega, .inl ⟨by omega, rfl⟩, fun j hj => by omega, ?_⟩
      rw [Nat.add_sub_cancel' (Nat.le_max_left ..)]

/-! ## Every fault of an instruction -/

/-- `Raises s i f`: the instruction `i`, run in `s`, raises the error `f`; one constructor per cause the
spec names (`40_flow.md` R100, R102; `44_timers_keys.md` R210, R211; `20_memory.md` R56, R57). -/
inductive Raises (s : State) : Instr → Fault → Prop
  | retEmpty (u : Nibble) : s.sp = 0 → Raises s (.ret u) (.stackUnderflow s.instrAddr s)
  | callFull (nnn : Addr12) : s.sp = 16 → Raises s (.call nnn) (.stackOverflow s.instrAddr s)
  | skpBadKey (x : Reg) : 15 < (s.getV x).toNat →
      Raises s (.skp x) (.keyIndexOutOfRange (s.getV x).toNat s)
  | sknpBadKey (x : Reg) : 15 < (s.getV x).toNat →
      Raises s (.sknp x) (.keyIndexOutOfRange (s.getV x).toNat s)
  | drwBeyond (x y : Reg) (n : Nibble) : 0 < n.toNat → 0xFFF < s.i.toNat + (n.toNat - 1) →
      Raises s (.drw x y n) (.memoryOutOfRange (max s.i.toNat 0x1000) s)
  | bcdBeyond (x : Reg) : 0xFFF < s.i.toNat + 2 →
      Raises s (.ldB x) (.memoryOutOfRange (max s.i.toNat 0x1000) s)
  | storeBeyond (x : Reg) : 0xFFF < s.i.toNat + x.val →
      Raises s (.storeRegs x) (.memoryOutOfRange (max s.i.toNat 0x1000) s)
  | loadBeyond (x : Reg) : 0xFFF < s.i.toNat + x.val →
      Raises s (.loadRegs x) (.memoryOutOfRange (max s.i.toNat 0x1000) s)
  | bcdProtected (x : Reg) : s.i.toNat < 0x200 → s.cfg.protectLow = true →
      Raises s (.ldB x) (.protectedWrite s.i.toNat s)
  | storeProtected (x : Reg) : s.i.toNat < 0x200 → s.cfg.protectLow = true →
      Raises s (.storeRegs x) (.protectedWrite s.i.toNat s)

theorem execDrw_fault {x y : Reg} {n : Nibble} :
    execDrw x y n s = .fault f ↔ 0 < n.toNat ∧ 0xFFF < s.i.toNat + (n.toNat - 1) ∧
      f = .memoryOutOfRange (max s.i.toNat 0x1000) s := guarded_readError_fault

theorem execLoadRegs_fault {x : Reg} :
    execLoadRegs x s = .fault f ↔ 0xFFF < s.i.toNat + x.val ∧
      f = .memoryOutOfRange (max s.i.toNat 0x1000) s := by
  rw [execLoadRegs, guarded_readError_fault, and_iff_right (Nat.succ_pos _)]
  rfl

theorem execLdB_fault {x : Reg} :
    execLdB x s = .fault f ↔
      (s.i.toNat < 0x200 ∧ s.cfg.protectLow = true ∧ f = .protectedWrite s.i.toNat s) ∨
        (0xFFF < s.i.toNat + 2 ∧ f = .memoryOutOfRange (max s.i.toNat 0x1000) s) :=
  guarded_writeError_fault (by decide) (by decide)

theorem execStoreRegs_fault {x : Reg} :
    execStoreRegs x s = .fault f ↔
      (s.i.toNat < 0x200 ∧ s.cfg.protectLow = true ∧ f = .protectedWrite s.i.toNat s) ∨
        (0xFFF < s.i.toNat + x.val ∧ f = .memoryOutOfRange (max s.i.toNat 0x1000) s) :=
  guarded_writeError_fault (Nat.succ_pos _) x.isLt

/-- `Raises` is every fault of `exec`: its causes, and no other. -/
theorem exec_fault : exec i s = .fault f ↔ Raises s i f := by
  constructor
  · intro h
    cases i
    case ret u => obtain ⟨hsp, rfl⟩ := execRet_fault.mp h; exact .retEmpty u hsp
    case call nnn => obtain ⟨hsp, rfl⟩ := execCall_fault.mp h; exact .callFull nnn hsp
    case skp x => obtain ⟨hkey, rfl⟩ := execSkp_fault.mp h; exact .skpBadKey x hkey
    case sknp x => obtain ⟨hkey, rfl⟩ := execSknp_fault.mp h; exact .sknpBadKey x hkey
    case drw x y n => obtain ⟨hn, ha, rfl⟩ := execDrw_fault.mp h; exact .drwBeyond x y n hn ha
    case loadRegs x => obtain ⟨ha, rfl⟩ := execLoadRegs_fault.mp h; exact .loadBeyond x ha
    case ldB x =>
      obtain ⟨hlow, hp, rfl⟩ | ⟨ha, rfl⟩ := execLdB_fault.mp h
      · exact .bcdProtected x hlow hp
      · exact .bcdBeyond x ha
    case storeRegs x =>
      obtain ⟨hlow, hp, rfl⟩ | ⟨ha, rfl⟩ := execStoreRegs_fault.mp h
      · exact .storeProtected x hlow hp
      · exact .storeBeyond x ha
    all_goals cases h
  · intro h
    cases h
    case retEmpty hsp => exact execRet_fault.mpr ⟨hsp, rfl⟩
    case callFull hsp => exact execCall_fault.mpr ⟨hsp, rfl⟩
    case skpBadKey hkey => exact execSkp_fault.mpr ⟨hkey, rfl⟩
    case sknpBadKey hkey => exact execSknp_fault.mpr ⟨hkey, rfl⟩
    case drwBeyond hn ha => exact execDrw_fault.mpr ⟨hn, ha, rfl⟩
    case loadBeyond ha => exact execLoadRegs_fault.mpr ⟨ha, rfl⟩
    case bcdProtected hlow hp => exact execLdB_fault.mpr (.inl ⟨hlow, hp, rfl⟩)
    case bcdBeyond ha => exact execLdB_fault.mpr (.inr ⟨ha, rfl⟩)
    case storeProtected hlow hp => exact execStoreRegs_fault.mpr (.inl ⟨hlow, hp, rfl⟩)
    case storeBeyond ha => exact execStoreRegs_fault.mpr (.inr ⟨ha, rfl⟩)

/-- An instruction that faults has written nothing. -/
theorem Raises.faultState_eq (h : Raises s i f) : faultState f = s := by
  cases h <;> rfl

/-- Settles O33: each failing range is a constructor of `Raises`. -/
theorem failingRangeReportsLowestAddress : Obligations.FailingRangeReportsLowestAddress := by
  intro x y n s
  refine ⟨?protection, ?bcd, ?registers, ?draw⟩
  case protection =>
    intro hp hlow
    exact ⟨exec_fault.mpr (.bcdProtected x hlow hp), exec_fault.mpr (.storeProtected x hlow hp)⟩
  case bcd =>
    intro ha
    exact exec_fault.mpr (.bcdBeyond x ha)
  case registers =>
    intro ha
    exact ⟨exec_fault.mpr (.storeBeyond x ha), exec_fault.mpr (.loadBeyond x ha)⟩
  case draw =>
    intro hn ha
    exact exec_fault.mpr (.drwBeyond x y n hn ha)

end Sys2Proof.Machine
end

section
/-! The instruction cycle (`30_encoding.md` R80 to R84): what STEP does in each of its cases, and the
errors it can end in (`60_exceptions.md` R232 to R235). -/

namespace Sys2Proof

theorem decodeWord_group1 (strict : Bool) (nnn : Addr12) :
    decodeWord strict (wordAddr 0x1 nnn) = .accepted (.jp nnn) :=
  decodeWord_encode (i := .jp nnn) rfl

theorem decodeWord_groupB (strict : Bool) (nnn : Addr12) :
    decodeWord strict (wordAddr 0xB nnn) = .accepted (.jpV0 nnn) :=
  decodeWord_encode (i := .jpV0 nnn) rfl

end Sys2Proof

namespace Sys2Proof.Machine

variable {s t : State} {f : Fault} {i : Instr}

/-! ## The cases of a step -/

theorem step_of_waiting (h : s.awaitingKey = true) : step s = .next s := by
  simp [step, cycle, h]

theorem step_of_fetchError {e : Nat → State → Fault} (hs : s.awaitingKey = false)
    (he : fetchError s.pc = some e) : step s = .fault (e s.pc.toNat s) := by
  simp [step, cycle, hs, he, raise]

theorem step_of_fetchOk (hs : s.awaitingKey = false) (hf : FetchOk s) :
    step s = runWord (s.fetchWord s.pc) s := by
  simp [step, cycle, hs, fetchOk_iff.mp hf]

theorem step_of_fetches (h : Fetches s i) : step s = exec i s.advance := by
  rw [step_of_fetchOk h.awake h.fetch, runWord, h.word]

theorem step_of_rejected {e : DecodeError} (hs : s.awaitingKey = false) (hf : FetchOk s)
    (hd : decodeWord s.cfg.strictDecode (s.fetchWord s.pc) = .rejected e) :
    step s = .fault (.unknownOpcode (s.fetchWord s.pc).toNat s.advance) := by
  rw [step_of_fetchOk hs hf, runWord, hd, raise]

/-! ## The checks of the program counter -/

theorem step_misaligned (hs : s.awaitingKey = false) (hodd : s.pc.toNat % 2 = 1) :
    step s = .fault (.fetchMisaligned s.pc.toNat s) := by
  have he : fetchError s.pc = some .fetchMisaligned := if_pos (getLsbD_zero_eq_true.mpr hodd)
  exact step_of_fetchError hs he

theorem fetchError_of_even {pc : Word} (heven : pc.toNat % 2 = 0) :
    fetchError pc = if pc.toNat < 0x200 then some .fetchBelowProgramStart
      else if 0xFFF < pc.toNat + 1 then some .memoryOutOfRange else none :=
  if_neg fun hodd => by rw [getLsbD_zero_eq_true] at hodd; omega

theorem step_belowProgramStart (hs : s.awaitingKey = false) (heven : s.pc.toNat % 2 = 0)
    (hlow : s.pc.toNat < 0x200) : step s = .fault (.fetchBelowProgramStart s.pc.toNat s) :=
  step_of_fetchError hs (by rw [fetchError_of_even heven, if_pos hlow])

theorem step_beyondMemory (hs : s.awaitingKey = false) (heven : s.pc.toNat % 2 = 0)
    (hhigh : 0xFFF < s.pc.toNat + 1) : step s = .fault (.memoryOutOfRange s.pc.toNat s) := by
  have hstart : ¬s.pc.toNat < 0x200 := by omega
  exact step_of_fetchError hs (by rw [fetchError_of_even heven, if_neg hstart, if_pos hhigh])

/-! ## The statements about single cases -/

/-- Settles O6: the wait is the first case of the cycle. -/
theorem keyWaitStallsStep : Obligations.KeyWaitStallsStep := fun _ => step_of_waiting

/-- Settles O7: one lemma per check of the program counter. -/
theorem fetchChecksInOrder : Obligations.FetchChecksInOrder := fun _ hs =>
  ⟨step_misaligned hs, step_belowProgramStart hs, fun heven _ => step_beyondMemory hs heven⟩

/-- Settles O8: a fetched word is run after the advance, or rejected after it. -/
theorem stepRunsDecodedInstruction : Obligations.StepRunsDecodedInstruction := by
  refine ⟨fun s i h => step_of_fetches h, fun s e hs hf hd => ?_⟩
  rw [step_of_rejected hs hf hd]
  rfl

/-- Settles O9: the decoder rejects every word on the list. -/
theorem illegalWordRaisesUnknownOpcode : Obligations.IllegalWordRaisesUnknownOpcode :=
  fun _ hs hf hillegal => step_of_rejected hs hf (decodeWord_of_illegalWord hillegal)

@[simp] theorem exec_jp (nnn : Addr12) (s : State) :
    exec (.jp nnn) s = .next (s.jumpTo (zext16 nnn)) := rfl

@[simp] theorem exec_jpV0 (nnn : Addr12) (s : State) :
    exec (.jpV0 nnn) s = .next (s.jumpTo (zext16 nnn + zext16 (s.getV 0))) := rfl

@[simp] theorem exec_ldVxK (x : Reg) (s : State) :
    exec (.ldVxK x) s = .next { s with awaitingKey := true, keyTarget := x } := rfl

theorem State.frame_jumpTo (s : State) (w : Word) : Frame { pc := true } s (s.jumpTo w) :=
  Frame.of_fields (fun r _ => s.getV_jumpTo w r) rfl

/-- Settles O14: the target is the literal, so the checks of the next fetch are on the literal. -/
theorem jumpAssignsPc : Obligations.JumpAssignsPc := by
  intro strict nnn s
  have hpc : (s.jumpTo (zext16 nnn)).pc.toNat = nnn.toNat := zext16_addr12_toNat nnn
  refine ⟨decodeWord_group1 strict nnn, _, exec_jp nnn s, hpc, s.frame_jumpTo _, ?_⟩
  rw [← hpc]
  exact ⟨fun hs => step_misaligned hs, fun hs => step_belowProgramStart hs⟩

/-- The sum of JP V0 never wraps: at most 0xFFF + 0xFF. -/
theorem jumpV0_target_toNat (nnn : Addr12) (b : Byte) :
    (zext16 nnn + zext16 b).toNat = nnn.toNat + b.toNat := by
  have hnnn := nnn.isLt
  have hb := b.isLt
  rw [BitVec.toNat_add, zext16_addr12_toNat, zext16_byte_toNat]
  omega

theorem jumpV0_target_le (nnn : Addr12) (b : Byte) : (zext16 nnn + zext16 b).toNat ≤ 0x10FE := by
  have hnnn := nnn.isLt
  have hb := b.isLt
  rw [jumpV0_target_toNat]
  omega

/-- Settles O20: the target is the sum, which does not wrap; the next fetch checks it. -/
theorem jumpIndexedByV0 : Obligations.JumpIndexedByV0 := fun strict nnn s =>
  ⟨decodeWord_groupB strict nnn, _, exec_jpV0 nnn s, jumpV0_target_toNat nnn _,
    jumpV0_target_le nnn _, s.frame_jumpTo _, fun hs => step_misaligned hs,
    fun hs => step_belowProgramStart hs,
    fun hs heven hhigh => step_beyondMemory hs heven (Nat.succ_lt_succ hhigh)⟩

/-- Settles O39: the instruction writes the key wait alone, and the wait stalls the next step. -/
theorem awaitKeyStartsTheWait : Obligations.AwaitKeyStartsTheWait := fun _ x s =>
  ⟨decodeWord_encode (i := .ldVxK x) rfl, _, exec_ldVxK x s, rfl, rfl,
    Frame.of_fields (fun _ _ => rfl) rfl, step_of_waiting rfl⟩

/-! ## Every error of a step -/

/-- A step that faults fails a check of the fetch, fetches an illegal word, or runs an instruction that
raises the fault. -/
theorem step_fault_cause (h : step s = .fault f) :
    (∃ e, fetchError s.pc = some e ∧ f = e s.pc.toNat s) ∨
      (FetchOk s ∧ IllegalWord s.cfg.strictDecode (s.fetchWord s.pc) ∧
        f = .unknownOpcode (s.fetchWord s.pc).toNat s.advance) ∨
      ∃ i, Fetches s i ∧ Raises s.advance i f := by
  obtain ⟨hs, hfetch | ⟨hok, ⟨hd, rfl⟩ | ⟨i, hd, hexec⟩⟩⟩ := step_fault h
  · exact .inl hfetch
  · exact .inr (.inl ⟨fetchOk_iff.mpr hok, illegalWord_of_rejected hd, rfl⟩)
  · exact .inr (.inr ⟨i, ⟨hs, fetchOk_iff.mpr hok, hd⟩, exec_fault.mp hexec⟩)

/-- An error of the fetch has written nothing. -/
theorem faultState_of_fetchError {pc : Word} {e : Nat → State → Fault} (he : fetchError pc = some e)
    (info : Nat) (s : State) : faultState (e info s) = s := by
  obtain ⟨rfl, -⟩ | ⟨rfl, -⟩ | ⟨rfl, -⟩ := fetchError_eq_some he <;> rfl

/-- Settles O10: a fetch error leaves the state itself, from which the same step fails again; every
other error comes after the advance and writes nothing more. -/
theorem everyErrorIsPrecise : Obligations.EveryErrorIsPrecise := by
  intro s f h
  obtain ⟨e, he, rfl⟩ | ⟨hok, -, rfl⟩ | ⟨i, hi, hraises⟩ := step_fault_cause h
  · have hstate := faultState_of_fetchError he s.pc.toNat s
    have hbad : ¬FetchOk s := fun hok => by simp [fetchOk_iff.mp hok] at he
    exact ⟨fun hok => absurd hok hbad, fun _ => ⟨hstate, hstate.symm ▸ h⟩⟩
  · exact ⟨fun _ => rfl, fun hbad => absurd hok hbad⟩
  · exact ⟨fun _ => hraises.faultState_eq, fun hbad => absurd hi.fetch hbad⟩

/-- Settles O11: the causes of `step_fault_cause`, one by one. -/
theorem errorsHaveTheListedCauses : Obligations.ErrorsHaveTheListedCauses := by
  intro s f h
  obtain ⟨e, he, rfl⟩ | ⟨hok, hillegal, rfl⟩ | ⟨i, hi, hraises⟩ := step_fault_cause h
  · obtain ⟨rfl, hodd⟩ | ⟨rfl, heven, hlow⟩ | ⟨rfl, heven, hhigh⟩ := fetchError_eq_some he
    · exact ⟨rfl, hodd⟩
    · exact ⟨rfl, heven, hlow⟩
    · exact ⟨by omega, .inl ⟨heven, rfl⟩⟩
  · exact ⟨hok, rfl, hillegal⟩
  · have hmax : 0xFFF < max s.i.toNat 0x1000 := by omega
    cases hraises
    case retEmpty u hsp => exact ⟨s.instrAddr_advance, hsp, u, hi⟩
    case callFull nnn hsp => exact ⟨s.instrAddr_advance, hsp, nnn, hi⟩
    case skpBadKey x hkey => exact ⟨hkey, x, rfl, .inl hi⟩
    case sknpBadKey x hkey => exact ⟨hkey, x, rfl, .inr hi⟩
    case drwBeyond x y n hn ha => exact ⟨hmax, .inr ⟨rfl, .inl ⟨x, y, n, hi, hn, ha⟩⟩⟩
    case bcdBeyond x ha => exact ⟨hmax, .inr ⟨rfl, .inr (.inl ⟨x, hi, ha⟩)⟩⟩
    case storeBeyond x ha => exact ⟨hmax, .inr ⟨rfl, .inr (.inr (.inl ⟨x, hi, ha⟩))⟩⟩
    case loadBeyond x ha => exact ⟨hmax, .inr ⟨rfl, .inr (.inr (.inr ⟨x, hi, ha⟩))⟩⟩
    case bcdProtected x hlow hp => exact ⟨hlow, rfl, hp, .inl ⟨x, hi⟩⟩
    case storeProtected x hlow hp => exact ⟨hlow, rfl, hp, .inr ⟨x, hi⟩⟩

/-! ## No refusal -/

theorem exec_ne_refused (i : Instr) (s : State) (r : Refusal) : exec i s ≠ .refused r := by
  cases i
  case ret => change execRet s ≠ _; unfold execRet raise; split <;> exact nofun
  case call nnn => change execCall nnn s ≠ _; unfold execCall raise; split <;> exact nofun
  case skp x => change execSkp x s ≠ _; unfold execSkp raise; split <;> exact nofun
  case sknp x => change execSknp x s ≠ _; unfold execSknp raise; split <;> exact nofun
  case drw | ldB | storeRegs | loadRegs => exact guarded_ne_refused
  all_goals exact nofun

/-- Settles O12: no instruction is refused, and neither the fetch nor the decoder refuses a step. -/
theorem nothingIsRefused : Obligations.NothingIsRefused := by
  refine ⟨exec_ne_refused, fun s r => ?_⟩
  unfold step cycle runWord raise
  split
  · exact nofun
  · split
    · exact nofun
    · split
      · exact exec_ne_refused _ _ r
      · exact nofun

end Sys2Proof.Machine
end

section
/-! RET, and RET after CALL (`40_flow.md` R100, R102). -/

namespace Sys2Proof.Machine

variable {s : State} {k : Fin 16}

@[simp] theorem exec_ret (u : Nibble) (s : State) : exec (.ret u) s = execRet s := rfl

/-- RET with `k + 1` entries on the stack takes the slot `k` and keeps it. -/
theorem execRet_of_sp (hk : s.sp = k.succ) :
    execRet s = .next { s with pc := s.stack[k.val], sp := k.castSucc } := by
  have hval : s.sp.val - 1 = k.val := by simp [hk]
  rw [execRet_of_entry (by simp [hk]) (by omega)]
  simp only [hval]
  rfl

/-- Settles O13: RET by `execRet_of_sp`, its fault a constructor of `Raises`. -/
theorem returnPopsTheStack : Obligations.ReturnPopsTheStack := by
  intro u s
  refine ⟨fun k hk => ?entry, fun hsp => exec_fault.mpr (.retEmpty u hsp)⟩
  case entry =>
    have hsp : s.sp = k.succ := Fin.ext hk
    exact ⟨_, (exec_ret u s).trans (execRet_of_sp hsp), rfl, rfl, rfl,
      Frame.of_fields (fun _ _ => rfl) rfl⟩

/-- Settles O16: CALL pushes to the slot at SP, and the RET takes that slot back. -/
theorem returnComesBackAfterCall : Obligations.ReturnComesBackAfterCall := by
  intro nnn u s hroom
  let k : Fin 16 := ⟨s.sp.val, hroom⟩
  refine ⟨_, (exec_call nnn s).trans (execCall_of_room hroom), _,
    (exec_ret u _).trans (execRet_of_sp (k := k) rfl), ?pc, rfl, ?slots, ?frame⟩
  case pc => simp [k]
  case slots => exact fun j hj => Vector.getElem_set_ne hroom j.isLt hj.symm
  case frame => exact Frame.of_fields (fun _ _ => rfl) (by simp [k])

end Sys2Proof.Machine
end

section
/-! The values VF takes as a flag (`10_state.md` R23), and RND (`41_alu.md` R142). -/

namespace Sys2Proof.Machine

theorem flagByte_eq_zero_or_one (f : Bool) : flagByte f = 0 ∨ flagByte f = 1 := by
  cases f
  · exact .inl rfl
  · exact .inr rfl

theorem State.setVWithFlag_VF_zero_or_one (s : State) (x : Reg) (b : Byte) (f : Bool) :
    (s.setVWithFlag x b f).getV VF = 0 ∨ (s.setVWithFlag x b f).getV VF = 1 := by
  rw [State.getV_setVWithFlag_VF]
  exact flagByte_eq_zero_or_one f

/-- Settles O26: each of the six writes VF last, with a `flagByte`. -/
theorem flagIsZeroOrOne : Obligations.FlagIsZeroOrOne := by
  rintro i s t ⟨x, y, n, rfl | rfl | rfl | rfl | rfl | rfl⟩ h
  case inr.inr.inr.inr.inr =>
    obtain ⟨-, rfl⟩ := execDrw_next.mp h
    rw [State.drawn_eq, State.getV_setV_same]
    exact flagByte_eq_zero_or_one _
  all_goals
    obtain rfl := Host.Outcome.next.inj h
    exact s.setVWithFlag_VF_zero_or_one x _ _

@[simp] theorem exec_rnd (x : Reg) (nn : Byte) (s : State) :
    exec (.rnd x nn) s =
      .next { s.setV x (Config.rand8 s.draws &&& nn) with draws := s.draws + 1 } := rfl

/-- Settles O27: the register takes the masked byte, read bit by bit. -/
theorem randomByteIsMasked : Obligations.RandomByteIsMasked := by
  intro strict x nn s
  have hx : State.getV { s.setV x (Config.rand8 s.draws &&& nn) with draws := s.draws + 1 } x =
      Config.rand8 s.draws &&& nn := s.getV_setV_same x _
  refine ⟨decodeWord_encode (i := .rnd x nn) rfl, _, exec_rnd x nn s, ?bits, ?zero, rfl,
    Frame.of_fields (fun r hr => s.getV_setV_other _ (by simpa using hr)) rfl⟩
  case bits =>
    intro k
    rw [hx, BitVec.getLsbD_and]
  case zero =>
    rintro rfl
    rw [hx]
    exact BitVec.and_zero

end Sys2Proof.Machine
end

section
/-! The keys: the key skips (`44_timers_keys.md` R210, R211) and SETKEY (`60_exceptions.md` R244, R245);
and the two commands that need no lemma of their own. -/

namespace Sys2Proof.Machine

variable {s : State} {x : Reg}

theorem exec_skp_of_lt (h : (s.getV x).toNat < 16) :
    exec (.skp x) s = .next (s.skipIf s.keys[(s.getV x).toNat]) := by
  change execSkp x s = _
  rw [execSkp, State.keyLevel_eq_some h]

theorem exec_sknp_of_lt (h : (s.getV x).toNat < 16) :
    exec (.sknp x) s = .next (s.skipIf (!s.keys[(s.getV x).toNat])) := by
  change execSknp x s = _
  rw [execSknp, State.keyLevel_eq_some h]

theorem State.pc_skipIf_not (s : State) (c : Bool) :
    (s.skipIf (!c)).pc = if c = true then s.pc else s.pc + 2 := by
  cases c <;> rfl

/-- Settles O37: a key index below 16 gives the level the skip is on; above 15 both raise. -/
theorem skipsOnKeyLevel : Obligations.SkipsOnKeyLevel := by
  intro x s
  refine ⟨fun k hk => ?level, fun hkey =>
    ⟨exec_fault.mpr (.skpBadKey x hkey), exec_fault.mpr (.sknpBadKey x hkey)⟩⟩
  case level =>
    have hlt : (s.getV x).toNat < 16 := hk ▸ k.isLt
    have hskp := exec_skp_of_lt hlt
    have hsknp := exec_sknp_of_lt hlt
    simp only [hk] at hskp hsknp
    exact ⟨⟨_, hskp, s.skipIf_pc _, s.frame_skipIf _⟩,
      ⟨_, hsknp, s.pc_skipIf_not _, s.frame_skipIf _⟩⟩

/-! ## SETKEY -/

theorem runCommand_setKey (k : Reg) (p : Bool) (s : State) :
    runCommand (.setKey k.val p) s =
      .next (resolveKeyWait k p { s with keys := s.keys.set k.val p }) :=
  congrArg Host.Outcome.next (setKeyCommand_inside k p)

/-- A press during a wait: the key, the register the wait names, and the wait's end. -/
theorem runCommand_setKey_press (k : Reg) (hwait : s.awaitingKey = true) :
    runCommand (.setKey k.val true) s = .next { s with
      keys := s.keys.set k.val true
      v := (s.setV s.keyTarget (BitVec.ofNat 8 k.val)).v
      awaitingKey := false } := by
  rw [runCommand_setKey]
  simp [resolveKeyWait, hwait]

/-- A release, or any SETKEY outside a wait: the key alone. -/
theorem runCommand_setKey_no_press (k : Reg) {p : Bool} (h : s.awaitingKey = false ∨ p = false) :
    runCommand (.setKey k.val p) s = .next { s with keys := s.keys.set k.val p } := by
  rw [runCommand_setKey]
  obtain h | rfl := h <;> simp [resolveKeyWait, *]

theorem keyByte_toNat (k : Reg) : (BitVec.ofNat 8 k.val).toNat = k.val :=
  Nat.mod_eq_of_lt (by omega)

/-- Settles O41: an index outside 0 to 15 is ignored; inside, a press during a wait and every other
SETKEY each leave the state their lemma names. -/
theorem setKeyWritesAndResolves : Obligations.SetKeyWritesAndResolves := by
  intro p s
  refine ⟨fun index hout => congrArg Host.Outcome.next (setKeyCommand_outside hout), fun k => ?inside⟩
  case inside =>
    have hkey : (s.keys.set k.val p)[k.val] = p := Vector.getElem_set_self k.isLt
    have hothers : ∀ j : Reg, j ≠ k → (s.keys.set k.val p)[j.val] = s.keys[j.val] := fun j hj =>
      Vector.getElem_set_ne k.isLt j.isLt fun he => hj (Fin.ext he.symm)
    by_cases hpress : s.awaitingKey = true ∧ p = true
    · obtain ⟨hwait, rfl⟩ := hpress
      have htarget := congrArg BitVec.toNat (s.getV_setV_same s.keyTarget (BitVec.ofNat 8 k.val))
      exact ⟨_, runCommand_setKey_press k hwait, hkey, hothers,
        fun _ _ => ⟨rfl, htarget.trans (keyByte_toNat k), fun _ hr => s.getV_setV_other _ hr⟩,
        fun h => by simp [hwait] at h, rfl⟩
    · have hno : s.awaitingKey = false ∨ p = false := by simpa [imp_iff_not_or] using hpress
      exact ⟨_, runCommand_setKey_no_press k hno, hkey, hothers,
        fun hwait hp => absurd ⟨hwait, hp⟩ hpress, fun _ => rfl, rfl⟩

/-! ## CLEAR_REDRAW, and the core before its first RESET -/

/-- Settles O42: the command is that one write. -/
theorem clearRedrawClearsOnlyTheFlag : Obligations.ClearRedrawClearsOnlyTheFlag := fun _ => rfl

/-- Settles O45: one row of `Device.command` per command. -/
theorem onlyResetBeforeTheFirstReset : Obligations.OnlyResetBeforeTheFirstReset := by
  intro cfg draws c
  refine ⟨fun hc => ?refused, rfl⟩
  case refused =>
    cases c
    case reset => exact absurd rfl hc
    all_goals rfl

end Sys2Proof.Machine
end

section
/-! The memory transfers (`42_index_memory.md` R163 to R165): when each completes, and what it moves. -/

namespace Sys2Proof.Machine

variable {s t : State} {x : Reg}

/-! ## Completion -/

theorem exec_ldB_of_writable (x : Reg) (hend : s.i.toNat + 2 ≤ 0xFFF)
    (hlow : s.cfg.protectLow = true → 0x200 ≤ s.i.toNat) :
    exec (.ldB x) s = .next (s.pokeRun (s.effAddr 0) (bcdDigits (s.getV x))) :=
  execLdB_next.mpr ⟨writeErrors_eq_none hend hlow, rfl⟩

theorem exec_storeRegs_of_writable (hend : s.i.toNat + x.val ≤ 0xFFF)
    (hlow : s.cfg.protectLow = true → 0x200 ≤ s.i.toNat) :
    exec (.storeRegs x) s = .next (s.pokeRun (s.effAddr 0) (s.regsUpTo x)) :=
  execStoreRegs_next.mpr ⟨writeErrors_eq_none hend hlow, rfl⟩

theorem exec_loadRegs_of_readable (hend : s.i.toNat + x.val ≤ 0xFFF) :
    exec (.loadRegs x) s = .next (s.loadV (x.val + 1)) :=
  execLoadRegs_next.mpr ⟨readErrors_eq_none (.inr hend), rfl⟩

/-! ## The bytes moved -/

/-- A decimal digit fits its byte. -/
theorem digitByte_toNat {d : Nat} (h : d < 10) : (BitVec.ofNat 8 d).toNat = d :=
  Nat.mod_eq_of_lt (by omega)

theorem State.peek_bcdDigits (s : State) (a : Nat) (b : Byte) :
    ((s.pokeRun a (bcdDigits b)).peek (a + 0)).toNat = b.toNat / 100 ∧
    ((s.pokeRun a (bcdDigits b)).peek (a + 1)).toNat = b.toNat / 10 % 10 ∧
    ((s.pokeRun a (bcdDigits b)).peek (a + 2)).toNat = b.toNat % 10 := by
  have hb := b.isLt
  refine ⟨?_, ?_, ?_⟩
  all_goals rw [State.peek_pokeRun_at _ _ _ (by simp)]; exact digitByte_toNat (by omega)

/-- The registers stored lie at I onward, each at its own number. -/
theorem State.peek_regsUpTo (s : State) {k : Reg} (hk : k ≤ x) :
    (s.pokeRun (s.effAddr 0) (s.regsUpTo x)).peek (s.effAddr k.val) = s.getV k := by
  have hlen : k.val < (s.regsUpTo x).length := by
    rw [State.regsUpTo_length]
    exact Nat.lt_succ_of_le hk
  exact (s.peek_pokeRun_at (s.effAddr 0) (s.regsUpTo x) hlen).trans (s.regsUpTo_getElem x k hlen)

theorem State.getV_loadV_of_le (s : State) {k : Reg} (hk : k ≤ x) :
    (s.loadV (x.val + 1)).getV k = s.peek (s.effAddr k.val) := by
  rw [State.getV_loadV, if_pos (Nat.lt_succ_of_le hk)]

/-! ## The statements -/

/-- Settles O29: the three digits as a run of stores at I. -/
theorem bcdStoresThreeDigits : Obligations.BcdStoresThreeDigits := by
  intro x s hend hlow
  obtain ⟨hundreds, tens, units⟩ := s.peek_bcdDigits (s.effAddr 0) (s.getV x)
  exact ⟨_, exec_ldB_of_writable x hend hlow, hundreds, tens, units,
    s.frame_pokeRun _ (bcdDigits (s.getV x))⟩

/-- Settles O30: the registers as a run of stores at I. -/
theorem storeRegistersInclusive : Obligations.StoreRegistersInclusive := by
  intro x s hend hlow
  have hexec := exec_storeRegs_of_writable hend hlow
  exact ⟨_, hexec, fun k hk => s.peek_regsUpTo hk, exec_frame hexec⟩

/-- Settles O31: `State.loadV` reads each register up to x and writes no other. -/
theorem loadRegistersInclusive : Obligations.LoadRegistersInclusive := by
  intro x s hend
  have hregs : (List.finRange 16).filter (fun k => decide (k.val < x.val + 1)) =
      (List.finRange 16).filter (fun k => decide (k ≤ x)) :=
    List.filter_congr fun k _ => decide_eq_decide.mpr Nat.lt_succ_iff
  refine ⟨_, exec_loadRegs_of_readable hend, fun k hk => s.getV_loadV_of_le hk, ?frame⟩
  case frame =>
    rw [← hregs]
    exact s.frame_loadV _

/-- Settles O32: the store completed, so its range is inside memory; the load reads the bytes stored,
at the same I. -/
theorem storedRegistersLoadBack : Obligations.StoredRegistersLoadBack := by
  intro x s t t' h hmem hcfg hi
  obtain ⟨hwritable, rfl⟩ := execStoreRegs_next.mp h
  have hend : s.i.toNat + x.val ≤ 0xFFF :=
    (writeError_eq_none.mp (hwritable x.val (Nat.lt_succ_self _))).1
  have hi' : t'.i = s.i := hi
  refine ⟨_, exec_loadRegs_of_readable (hi' ▸ hend), fun k hk => ?_⟩
  have haddr : t'.effAddr k.val = s.effAddr k.val := congrArg (·.toNat + k.val) hi'
  rw [State.getV_loadV_of_le t' hk, State.peek_congr hmem hcfg, haddr]
  exact s.peek_regsUpTo hk

end Sys2Proof.Machine
end

section
/-! DRW (`43_display.md` R191): the sprite a draw places, what it does to each pixel and to VF, and that
a second draw undoes the first. -/

namespace Sys2Proof.Machine

variable {s : State} {x y : Reg} {n : Nibble} {px : Fin 64} {py : Fin 32}

/-- Whether the sprite of DRW Vx, Vy, n in `s` has a set bit on the pixel. -/
def State.SpriteOn (s : State) (x y : Reg) (n : Nibble) (px : Fin 64) (py : Fin 32) : Prop :=
  SpriteSets (s.getV x).toNat (s.getV y).toNat (fun r => s.peek (s.effAddr r)) n.toNat px py

theorem exec_drw_of_readable (x y : Reg) (h : n.toNat = 0 ∨ s.i.toNat + (n.toNat - 1) ≤ 0xFFF) :
    exec (.drw x y n) s = .next (s.drawn x y n) :=
  execDrw_next.mpr ⟨readErrors_eq_none h, rfl⟩

/-! ## What a draw does -/

theorem nibble_rows_le (n : Nibble) : n.toNat ≤ 32 := by
  have := n.isLt
  omega

theorem State.pixel_drawn_of_on (h : s.SpriteOn x y n px py) :
    (s.drawn x y n).disp.pixel px py = !s.disp.pixel px py :=
  ((drawRows_spec (nibble_rows_le n)).1 px py).1 h

theorem State.pixel_drawn_of_off (h : ¬s.SpriteOn x y n px py) :
    (s.drawn x y n).disp.pixel px py = s.disp.pixel px py :=
  ((drawRows_spec (nibble_rows_le n)).1 px py).2 h

/-- Whether a pixel under the sprite was on. -/
def State.Collides (s : State) (x y : Reg) (n : Nibble) : Prop :=
  ∃ px py, s.SpriteOn x y n px py ∧ s.disp.pixel px py = true

theorem State.getV_VF_drawn_of_collides (h : s.Collides x y n) : (s.drawn x y n).getV VF = 1 := by
  have hcol := (drawRows_spec (d := s.disp) (col := false) (nibble_rows_le n)).2.mpr (.inr h)
  rw [State.drawn_eq, State.getV_setV_same, hcol, flagByte_true]

theorem State.getV_VF_drawn_of_not_collides (h : ¬s.Collides x y n) :
    (s.drawn x y n).getV VF = 0 := by
  have hcol : ¬_ = true := mt (drawRows_spec (d := s.disp) (col := false) (nibble_rows_le n)).2.mp
    fun hor => hor.elim Bool.false_ne_true h
  rw [State.drawn_eq, State.getV_setV_same, Bool.eq_false_of_not_eq_true hcol, flagByte_false]

theorem State.getV_VF_drawn_eq_one : (s.drawn x y n).getV VF = 1 ↔ s.Collides x y n := by
  refine ⟨fun h => ?_, State.getV_VF_drawn_of_collides⟩
  by_contra hno
  rw [State.getV_VF_drawn_of_not_collides hno] at h
  exact absurd h (by decide)

/-- Settles O35: each pixel by whether the sprite has a set bit on it, VF by `State.Collides`. -/
theorem drawTogglesTheSprite : Obligations.DrawTogglesTheSprite := fun x y n s h =>
  ⟨_, exec_drw_of_readable x y h,
    fun _ _ => ⟨State.pixel_drawn_of_on, State.pixel_drawn_of_off⟩,
    State.getV_VF_drawn_of_collides, State.getV_VF_drawn_of_not_collides, rfl, s.frame_drawn x y n⟩

/-! ## Drawing twice -/

theorem Screen.ext_pixel {d e : Screen} (h : ∀ px py, d.pixel px py = e.pixel px py) : d = e :=
  Vector.ext fun py hpy => Vector.ext fun px hpx => h ⟨px, hpx⟩ ⟨py, hpy⟩

/-- A draw writes neither memory nor I, nor a coordinate other than VF, so the same DRW draws the same
sprite again. -/
theorem State.spriteOn_drawn (hx : x ≠ VF) (hy : y ≠ VF) :
    (s.drawn x y n).SpriteOn x y n px py ↔ s.SpriteOn x y n px py := by
  have hgetV : ∀ r, r ≠ VF → (s.drawn x y n).getV r = s.getV r := fun r hr =>
    (s.frame_drawn x y n).regs r (by simpa using hr)
  unfold State.SpriteOn
  rw [hgetV x hx, hgetV y hy]
  rfl

theorem State.disp_drawn_drawn (hx : x ≠ VF) (hy : y ≠ VF) :
    ((s.drawn x y n).drawn x y n).disp = s.disp := by
  refine Screen.ext_pixel fun px py => ?_
  have hsame := State.spriteOn_drawn (s := s) (n := n) (px := px) (py := py) hx hy
  by_cases hon : s.SpriteOn x y n px py
  · rw [State.pixel_drawn_of_on (hsame.mpr hon), State.pixel_drawn_of_on hon, Bool.not_not]
  · rw [State.pixel_drawn_of_off (mt hsame.mp hon), State.pixel_drawn_of_off hon]

theorem State.not_collides_of_blank (h : s.disp = Screen.blank) : ¬s.Collides x y n := by
  rintro ⟨px, py, -, hpixel⟩
  rw [h, Screen.pixel_blank] at hpixel
  exact Bool.false_ne_true hpixel

/-- On a blank screen the second draw meets every set bit of the first. -/
theorem State.collides_drawn_of_blank (hx : x ≠ VF) (hy : y ≠ VF) (h : s.disp = Screen.blank) :
    (s.drawn x y n).Collides x y n ↔ ∃ px py, s.SpriteOn x y n px py := by
  constructor
  · rintro ⟨px, py, hon, -⟩
    exact ⟨px, py, (State.spriteOn_drawn hx hy).mp hon⟩
  · rintro ⟨px, py, hon⟩
    refine ⟨px, py, (State.spriteOn_drawn hx hy).mpr hon, ?_⟩
    rw [State.pixel_drawn_of_on hon, h, Screen.pixel_blank, Bool.not_false]

/-- A sprite lies on some pixel exactly when it has a set bit. -/
theorem State.exists_spriteOn_iff :
    (∃ px py, s.SpriteOn x y n px py) ↔
      ∃ r c, r < n.toNat ∧ c < 8 ∧ (s.peek (s.effAddr r)).getLsbD (7 - c) = true := by
  constructor
  · rintro ⟨px, py, r, c, hr, hc, hbit, -, -⟩
    exact ⟨r, c, hr, hc, hbit⟩
  · rintro ⟨r, c, hr, hc, hbit⟩
    exact ⟨spriteX (s.getV x).toNat c, spriteY (s.getV y).toNat r, r, c, hr, hc, hbit, rfl, rfl⟩

/-- Settles O36: each pixel toggled twice or not at all; the second draw collides exactly with what the
first one drew. -/
theorem drawingTwiceRestoresTheScreen : Obligations.DrawingTwiceRestoresTheScreen := by
  intro x y n s t hx hy h
  obtain ⟨hreadable, rfl⟩ := execDrw_next.mp h
  refine ⟨_, execDrw_next.mpr ⟨hreadable, rfl⟩, State.disp_drawn_drawn hx hy, fun hblank => ?_⟩
  refine ⟨State.getV_VF_drawn_of_not_collides (State.not_collides_of_blank hblank), ?_⟩
  rw [State.getV_VF_drawn_eq_one, State.collides_drawn_of_blank hx hy hblank,
    State.exists_spriteOn_iff]

end Sys2Proof.Machine
end

section
/-! Memory's canonical form (log 8): memories in that form that read alike are equal. -/

namespace Sys2Proof.Machine

variable {cfg : Config} {m m' rest : Memory} {lo k : Nat} {b : Byte}

theorem Memory.wfFrom_cons :
    Memory.wfFrom cfg lo ((k, b) :: rest) = true ↔
      lo ≤ k ∧ k < memSize ∧ b ≠ resetByte cfg k ∧ Memory.wfFrom cfg (k + 1) rest = true := by
  simp [Memory.wfFrom, and_assoc]

/-- A canonical memory lists nothing below its first cell. -/
theorem Memory.wfFrom_head (h : Memory.wfFrom cfg lo ((k, b) :: rest) = true) :
    Memory.wfFrom cfg k ((k, b) :: rest) = true := by
  obtain ⟨-, hrest⟩ := Memory.wfFrom_cons.mp h
  exact Memory.wfFrom_cons.mpr ⟨le_rfl, hrest⟩

theorem Memory.read_cons_same : Memory.read cfg ((k, b) :: rest) k = b := if_pos rfl

theorem Memory.read_cons_other {a : Nat} (h : a ≠ k) :
    Memory.read cfg ((k, b) :: rest) a = Memory.read cfg rest a := if_neg h

/-- Below its first cell a memory reads as the reset contents. -/
theorem Memory.read_below {a : Nat} (h : m.wfFrom cfg lo = true) (ha : a < lo) :
    m.read cfg a = resetByte cfg a := by
  induction m generalizing lo with
  | nil => rfl
  | cons cell rest ih =>
    obtain ⟨k, b⟩ := cell
    obtain ⟨hk, -, -, hrest⟩ := Memory.wfFrom_cons.mp h
    rw [Memory.read_cons_other (by omega)]
    exact ih hrest (by omega)

/-- A first cell below everything the other memory lists is read differently there. -/
theorem Memory.read_cons_ne_of_below (h : Memory.wfFrom cfg lo ((k, b) :: rest) = true) {lo' : Nat}
    (h' : m'.wfFrom cfg lo' = true) (hlt : k < lo') :
    Memory.read cfg ((k, b) :: rest) k ≠ m'.read cfg k := by
  obtain ⟨-, -, hb, -⟩ := Memory.wfFrom_cons.mp h
  rw [Memory.read_cons_same, Memory.read_below h' hlt]
  exact hb

/-- Both lists are read at the lower of their first addresses: there they agree or differ. -/
theorem Memory.eq_of_read_eq (h : m.wfFrom cfg lo = true) (h' : m'.wfFrom cfg lo = true)
    (hread : ∀ a, a < memSize → m.read cfg a = m'.read cfg a) : m = m' := by
  induction m generalizing m' lo with
  | nil =>
    cases m' with
    | nil => rfl
    | cons cell' rest' =>
      obtain ⟨k', b'⟩ := cell'
      obtain ⟨-, hk', -, -⟩ := Memory.wfFrom_cons.mp h'
      exact absurd (hread k' hk').symm
        (Memory.read_cons_ne_of_below (m' := []) h' (lo' := k' + 1) rfl (Nat.lt_succ_self k'))
  | cons cell rest ih =>
    obtain ⟨k, b⟩ := cell
    obtain ⟨hlo, hk, hb, hrest⟩ := Memory.wfFrom_cons.mp h
    cases m' with
    | nil =>
      exact absurd (hread k hk)
        (Memory.read_cons_ne_of_below (m' := []) h (lo' := k + 1) rfl (Nat.lt_succ_self k))
    | cons cell' rest' =>
      obtain ⟨k', b'⟩ := cell'
      obtain ⟨hlo', hk', hb', hrest'⟩ := Memory.wfFrom_cons.mp h'
      obtain hlt | rfl | hgt := Nat.lt_trichotomy k k'
      · exact absurd (hread k hk) (Memory.read_cons_ne_of_below h (Memory.wfFrom_head h') hlt)
      · have hbb : b = b' := by
          have := hread k hk
          rwa [Memory.read_cons_same, Memory.read_cons_same] at this
        have hrr : rest = rest' := ih hrest hrest' fun a ha => by
          by_cases hak : a = k
          · rw [Memory.read_below hrest (by omega), Memory.read_below hrest' (by omega)]
          · have := hread a ha
            rwa [Memory.read_cons_other hak, Memory.read_cons_other hak] at this
        rw [hbb, hrr]
      · exact absurd (hread k' hk').symm (Memory.read_cons_ne_of_below h' (Memory.wfFrom_head h) hgt)

/-- Settles O56: by induction on both lists, from any lower bound (`Memory.eq_of_read_eq`). -/
theorem canonicalMemoriesAreEqual : Obligations.CanonicalMemoriesAreEqual :=
  fun _ _ _ => Memory.eq_of_read_eq

end Sys2Proof.Machine
end

section
/-! What an instruction and a command can do to memory, PC, the stack and the parameters, and the
invariants that follow (`10_state.md` R26, `20_memory.md` R52, R53, R57). -/

namespace Sys2Proof.Machine

variable {s t : State} {i : Instr} {c : Command}

/-! ## The stores of an instruction -/

/-- An instruction that completes keeps memory, or stores a run of bytes at I, each address of it
checked. -/
theorem exec_stores (h : exec i s = .next t) :
    (t.mem = s.mem ∧ storedRange i s = (0, 0)) ∨
      ∃ bytes, t = s.pokeRun (s.effAddr 0) bytes ∧
        storedRange i s = (s.effAddr 0, bytes.length) ∧
        ∀ k, k < bytes.length → writeError s.cfg (s.effAddr 0 + k) = none := by
  cases i
  case ldB x =>
    obtain ⟨hchecked, rfl⟩ := execLdB_next.mp h
    exact .inr ⟨_, rfl, rfl, hchecked⟩
  case storeRegs x =>
    obtain ⟨hchecked, rfl⟩ := execStoreRegs_next.mp h
    have hlen := s.regsUpTo_length x
    exact .inr ⟨_, rfl, by rw [hlen]; rfl, by rwa [hlen]⟩
  case ret => obtain ⟨-, -, rfl⟩ := execRet_next h; exact .inl ⟨rfl, rfl⟩
  case call => obtain ⟨-, rfl⟩ := execCall_next h; exact .inl ⟨rfl, rfl⟩
  case seImm | sneImm | seReg | sneReg | skp | sknp =>
    obtain ⟨taken, rfl, -⟩ := exec_skip_next (by trivial) h
    exact .inl ⟨s.skipIf_mem taken, rfl⟩
  case drw => obtain ⟨-, rfl⟩ := execDrw_next.mp h; exact .inl ⟨rfl, rfl⟩
  case loadRegs =>
    obtain ⟨-, rfl⟩ := execLoadRegs_next.mp h
    rw [s.loadV_frame]; exact .inl ⟨rfl, rfl⟩
  all_goals obtain rfl := Host.Outcome.next.inj h; exact .inl ⟨rfl, rfl⟩

theorem exec_cfg (h : exec i s = .next t) : t.cfg = s.cfg := (exec_memory h).1

theorem exec_wf (h : exec i s = .next t) (hwf : s.mem.wf s.cfg = true) :
    t.mem.wf t.cfg = true := by
  rw [exec_cfg h]
  obtain ⟨hmem, -⟩ | ⟨bytes, rfl, -, hchecked⟩ := exec_stores h
  · rwa [hmem]
  · cases bytes with
    | nil => exact hwf
    | cons b rest =>
      have hlast := writeError_eq_none.mp (hchecked rest.length (Nat.lt_succ_self _))
      refine Memory.wf_writeRun _ hwf ?_
      rw [List.length_cons, memSize]
      omega

/-- With protection on, a range that is stored lies at 0x200 or above. -/
theorem exec_storedRange_protected (h : exec i s = .next t) (hp : s.cfg.protectLow = true) :
    (storedRange i s).2 = 0 ∨ 0x200 ≤ (storedRange i s).1 := by
  obtain ⟨-, hnone⟩ | ⟨bytes, rfl, hrange, hchecked⟩ := exec_stores h
  · exact .inl (by rw [hnone])
  · rw [hrange]
    by_cases hempty : bytes.length = 0
    · exact .inl hempty
    · exact .inr ((writeError_eq_none.mp (hchecked 0 (by omega))).2 hp)

theorem exec_peek_protected (h : exec i s = .next t) (hp : s.cfg.protectLow = true) {a : Nat}
    (ha : a < 0x200) : t.peek a = s.peek a := by
  have hrange := exec_storedRange_protected h hp
  exact (exec_memory h).2 a (by omega)

/-- Settles O51: the advance writes no memory, and the instruction none below 0x200. -/
theorem noStepWritesLowMemory : Obligations.NoStepWritesLowMemory := by
  intro s t hp h a ha
  obtain ⟨-, rfl⟩ | ⟨i, -, hexec⟩ := step_next_fetches h
  · rfl
  · exact exec_peek_protected hexec hp ha

/-! ## The effect of a command -/

/-- `Effect s t c`: what the command `c` does, in `s`, to memory, PC, the stack and the parameters, when
it leaves `t`; after an error too. -/
inductive Effect (s t : State) : Command → Prop
  | reset : t = State.resetWith s.cfg s.draws → Effect s t .reset
  | loads (bytes : List Byte) : bytes.length ≤ maxProgram → t = s.pokeRun programStart bytes →
      Effect s t (.load bytes)
  | executes (i : Instr) : Fetches s i → exec i s.advance = .next t → Effect s t .step
  | keeps (c : Command) : t.mem = s.mem → t.cfg = s.cfg → t.stack = s.stack →
      (t.pc = s.pc ∨ FetchOk s ∧ t.pc = s.pc + 2) → Effect s t c

theorem Effect.of_step (h : stateAfter (step s) = some t) : Effect s t .step := by
  cases hstep : step s with
  | next u =>
    rw [hstep] at h
    obtain rfl := Option.some.inj h
    obtain ⟨-, rfl⟩ | ⟨i, hi, hexec⟩ := step_next_fetches hstep
    · exact .keeps _ rfl rfl rfl (.inl rfl)
    · exact .executes i hi hexec
  | fault f =>
    rw [hstep] at h
    obtain rfl := Option.some.inj h
    obtain ⟨hadvanced, hkept⟩ := everyErrorIsPrecise s f hstep
    by_cases hok : FetchOk s
    · rw [hadvanced hok]
      exact .keeps _ rfl rfl rfl (.inr ⟨hok, rfl⟩)
    · rw [(hkept hok).1]
      exact .keeps _ rfl rfl rfl (.inl rfl)
  | refused r => exact absurd hstep (nothingIsRefused.2 s r)

theorem Effect.of_load {bytes : List Byte} (h : stateAfter (loadCommand bytes s) = some t) :
    Effect s t (.load bytes) := by
  by_cases hfits : bytes.length ≤ maxProgram
  · rw [loadCommand_next.mpr ⟨hfits, rfl⟩] at h
    exact .loads bytes hfits (Option.some.inj h).symm
  · rw [loadCommand_oversize (Nat.lt_of_not_le hfits)] at h
    obtain rfl := Option.some.inj h
    exact .keeps _ rfl rfl rfl (.inl rfl)

theorem Effect.of_setKey {index : Int} {p : Bool}
    (h : stateAfter (runCommand (.setKey index p) s) = some t) : Effect s t (.setKey index p) := by
  by_cases hin : 0 ≤ index ∧ index ≤ 15
  · obtain ⟨k, rfl⟩ : ∃ k : Reg, index = k.val := ⟨⟨index.toNat, by omega⟩, by simp; omega⟩
    by_cases hpress : s.awaitingKey = true ∧ p = true
    · obtain ⟨hwait, rfl⟩ := hpress
      rw [runCommand_setKey_press k hwait] at h
      obtain rfl := Option.some.inj h
      exact .keeps _ rfl rfl rfl (.inl rfl)
    · rw [runCommand_setKey_no_press k (by simpa [imp_iff_not_or] using hpress)] at h
      obtain rfl := Option.some.inj h
      exact .keeps _ rfl rfl rfl (.inl rfl)
  · obtain rfl : setKeyCommand index p s = t := Option.some.inj h
    rw [setKeyCommand_outside (by omega)]
    exact .keeps _ rfl rfl rfl (.inl rfl)

/-- Every command has one of the effects. -/
theorem Effect.of_runCommand (h : stateAfter (runCommand c s) = some t) : Effect s t c := by
  cases c
  case step => exact .of_step h
  case load bytes => exact .of_load h
  case setKey index p => exact .of_setKey h
  all_goals obtain rfl := Option.some.inj h
  case reset => exact .reset rfl
  case tick | clearRedraw => exact .keeps _ rfl rfl rfl (.inl rfl)

theorem Effect.cfg_eq (h : Effect s t c) : t.cfg = s.cfg := by
  cases h
  case reset ht => rw [ht]; rfl
  case loads bytes _ ht => rw [ht, State.pokeRun_cfg]
  case executes i _ hexec => exact (exec_cfg hexec).trans s.advance_cfg
  case keeps _ hcfg _ _ => exact hcfg

/-! ## The invariant of memory -/

/-- The invariant is about memory and the parameters alone. -/
theorem Inv.congr (h : Inv s) (hmem : t.mem = s.mem) (hcfg : t.cfg = s.cfg) : Inv t where
  mem := by rw [hmem, hcfg]; exact h.mem
  cfg := by rw [hcfg]; exact h.cfg
  low hp a ha := by
    rw [hcfg] at hp
    rw [State.peek_congr hmem hcfg, hcfg]
    exact h.low hp a ha

theorem Inv.resetWith {cfg : Config} (hcfg : cfg.wf) (draws : Nat) :
    Inv (State.resetWith cfg draws) :=
  ⟨Memory.wf_nil, hcfg, fun _ a _ => State.peek_resetWith cfg draws a⟩

theorem Inv.exec (h : Inv s) (hexec : exec i s = .next t) : Inv t where
  mem := exec_wf hexec h.mem
  cfg := exec_cfg hexec ▸ h.cfg
  low hp a ha := by
    rw [exec_cfg hexec] at hp ⊢
    rw [exec_peek_protected hexec hp ha]
    exact h.low hp a ha

/-- A program that fits is stored at 0x200 onward, inside memory and above the protected bytes. -/
theorem Inv.load {bytes : List Byte} (h : Inv s) (hfits : bytes.length ≤ maxProgram) :
    Inv (s.pokeRun programStart bytes) where
  mem := Memory.wf_writeRun bytes h.mem (by simp only [maxProgram, memSize, programStart] at *; omega)
  cfg := h.cfg
  low hp a ha := by
    rw [State.peek_pokeRun_outside _ _ _ (.inl ha)]
    exact h.low hp a ha

theorem Inv.effect (h : Inv s) (he : Effect s t c) : Inv t := by
  cases he
  case reset ht => exact ht ▸ Inv.resetWith h.cfg s.draws
  case loads bytes hfits ht => exact ht ▸ h.load hfits
  case executes i _ hexec => exact (h.congr s.advance_mem s.advance_cfg).exec hexec
  case keeps hmem hcfg _ _ => exact h.congr hmem hcfg

/-- Settles O49: each effect of a command keeps the invariant. -/
theorem everyCommandKeepsTheInvariant : Obligations.EveryCommandKeepsTheInvariant :=
  fun _ _ _ h hafter => h.effect (.of_runCommand hafter)

/-- Settles O48: a step that succeeds is the command STEP. -/
theorem stepKeepsTheInvariant : Obligations.StepKeepsTheInvariant :=
  fun _ _ h hstep => h.effect (.of_step (congrArg stateAfter hstep))

/-! ## The bounds on PC and the stack -/

theorem PcBounded.of_eq (hpc : s.pc.toNat ≤ 0x10FE)
    (hstack : ∀ k : Fin 16, s.stack[k.val].toNat ≤ 0x1000)
    (hp : t.pc = s.pc) (hs : t.stack = s.stack) : PcBounded t :=
  ⟨hp ▸ hpc, fun k => by simpa only [hs] using hstack k⟩

theorem PcBounded.resetWith (cfg : Config) (draws : Nat) :
    PcBounded (State.resetWith cfg draws) where
  pc := by change (0x200 : Nat) ≤ 0x10FE; decide
  stack k := by rw [State.stack_resetWith]; decide

/-- The address after a fetched instruction: what CALL pushes. -/
theorem FetchOk.advance_le (h : FetchOk s) : (s.pc + 2).toNat ≤ 0x1000 := by
  obtain ⟨heven, -, hinside⟩ := h
  bv_omega

/-- From the address after a fetched instruction, every control transfer stays in the bounds. -/
theorem PcBounded.exec (hpc : s.pc.toNat ≤ 0x1000)
    (hstack : ∀ k : Fin 16, s.stack[k.val].toNat ≤ 0x1000)
    (h : exec i s = .next t) : PcBounded t := by
  cases i
  case ret =>
    obtain ⟨hlt, -, rfl⟩ := execRet_next h
    exact ⟨(hstack ⟨_, hlt⟩).trans (by decide), hstack⟩
  case call nnn =>
    obtain ⟨hlt, rfl⟩ := execCall_next h
    refine ⟨?target, fun k => ?slot⟩
    case target => rw [zext16_addr12_toNat]; omega
    case slot =>
      rw [Vector.getElem_set]
      split
      · exact hpc
      · exact hstack k
  case jp nnn =>
    obtain rfl := Host.Outcome.next.inj h
    exact ⟨by rw [State.jumpTo_pc, zext16_addr12_toNat]; omega, hstack⟩
  case jpV0 nnn =>
    obtain rfl := Host.Outcome.next.inj h
    exact ⟨jumpV0_target_le nnn _, hstack⟩
  case seImm | sneImm | seReg | sneReg | skp | sknp =>
    obtain ⟨taken, rfl, -⟩ := exec_skip_next (by trivial) h
    cases taken
    · exact ⟨hpc.trans (by decide), hstack⟩
    · exact ⟨by rw [State.skipIf_true]; bv_omega, hstack⟩
  all_goals
    have hframe := exec_frame h
    exact .of_eq (hpc.trans (by decide)) hstack (hframe.pc rfl) (hframe.stack rfl).1

theorem PcBounded.effect (h : PcBounded s) (he : Effect s t c) : PcBounded t := by
  cases he
  case reset ht => exact ht ▸ PcBounded.resetWith s.cfg s.draws
  case loads bytes _ ht => exact ht ▸ ⟨h.pc, h.stack⟩
  case executes i hi hexec => exact .exec (s := s.advance) hi.fetch.advance_le h.stack hexec
  case keeps _ _ hstack hpc =>
    obtain hpc | ⟨hok, hpc⟩ := hpc
    · exact .of_eq h.pc h.stack hpc hstack
    · exact .of_eq (s := s.advance) (hok.advance_le.trans (by decide)) h.stack hpc hstack

/-- Settles O52: each effect of a command keeps the bounds. -/
theorem everyCommandKeepsPcBounded : Obligations.EveryCommandKeepsPcBounded :=
  fun _ _ _ h hafter => h.effect (.of_runCommand hafter)

/-! ## Reset, and every reachable state -/

/-- Settles O50: the default parameters are admissible. -/
theorem resetMeetsTheInvariants : Obligations.ResetMeetsTheInvariants :=
  ⟨Inv.resetWith rfl 0, PcBounded.resetWith Config.default 0⟩

/-- Settles O53: both invariants hold after RESET and every effect keeps them and the parameters. -/
theorem reachableStatesMeetTheInvariants : Obligations.ReachableStatesMeetTheInvariants := by
  intro cfg s hcfg hreach
  induction hreach with
  | reset draws => exact ⟨Inv.resetWith hcfg draws, PcBounded.resetWith cfg draws, rfl⟩
  | command c s t _ hafter ih =>
    obtain ⟨hinv, hbounded, hparams⟩ := ih
    have heffect := Effect.of_runCommand hafter
    exact ⟨hinv.effect heffect, hbounded.effect heffect, heffect.cfg_eq.trans hparams⟩

end Sys2Proof.Machine
end

section
/-! The glyph table and the check of its premise (`20_memory.md` R53): only RESET and a flagged STEP
reach it, and protection meets the premise. -/

namespace Sys2Proof.Machine

variable {s t : State} {i : Instr} {c : Command}

/-! ## Who reaches the table -/

theorem meetsGlyphs_eq_true {range : Nat × Nat} :
    meetsGlyphs range = true ↔ 0 < range.2 ∧ range.1 < 80 := by
  rw [meetsGlyphs, Bool.and_eq_true, decide_eq_true_iff, decide_eq_true_iff, glyphBytes]

theorem stepStoresToGlyphs_of_fetches (hi : Fetches s i) (hexec : exec i s.advance = .next t)
    (hmeets : meetsGlyphs (storedRange i s) = true) : stepStoresToGlyphs s = true :=
  stepStoresToGlyphs_eq_true.mpr
    ⟨hi.awake, ⟨t, (step_of_fetches hi).trans hexec⟩, i, hi.word, hmeets⟩

/-- A byte of the table changes only under RESET, or under a STEP that the check flags. -/
theorem Effect.peek_glyph (he : Effect s t c) (hreset : c ≠ .reset) {a : Nat} (ha : a < 0x50) :
    t.peek a = s.peek a ∨ c = .step ∧ stepStoresToGlyphs s = true := by
  cases he
  case reset => exact absurd rfl hreset
  case loads bytes _ ht =>
    rw [ht]
    exact .inl (State.peek_pokeRun_outside _ _ _ (.inl (ha.trans (by decide))))
  case executes i hi hexec =>
    by_cases hmeets : meetsGlyphs (storedRange i s) = true
    · exact .inr ⟨rfl, stepStoresToGlyphs_of_fetches hi hexec hmeets⟩
    · rw [meetsGlyphs_eq_true, ← storedRange_advance] at hmeets
      exact .inl ((exec_memory hexec).2 a (by omega))
  case keeps hmem hcfg _ _ => exact .inl (State.peek_congr hmem hcfg a)

/-- Settles O57: by the effects of a command (`Effect.peek_glyph`). -/
theorem onlyResetAndFlaggedStoresReachTheGlyphTable :
    Obligations.OnlyResetAndFlaggedStoresReachTheGlyphTable :=
  fun _ _ _ hreset hafter _ ha hchanged =>
    ((Effect.of_runCommand hafter).peek_glyph hreset ha).resolve_left hchanged

/-! ## Protection meets the premise -/

theorem stepStoresToGlyphs_of_protected (hp : s.cfg.protectLow = true) :
    stepStoresToGlyphs s = false := by
  by_contra hflagged
  obtain ⟨hawake, ⟨t, hstep⟩, i, hword, hmeets⟩ :=
    stepStoresToGlyphs_eq_true.mp (Bool.eq_true_of_not_eq_false hflagged)
  obtain ⟨hwait, -⟩ | ⟨j, hj, hexec⟩ := step_next_fetches hstep
  · simp [hawake] at hwait
  · obtain rfl : j = i := Decoded.accepted.inj (hj.word.symm.trans hword)
    obtain ⟨hlen, hlo⟩ := meetsGlyphs_eq_true.mp hmeets
    have hrange := exec_storedRange_protected hexec hp
    rw [storedRange_advance] at hrange
    omega

theorem sparesGlyphs_of_protected (c : Command) (hp : s.cfg.protectLow = true) :
    sparesGlyphs c s = true := by
  cases c
  case step => exact congrArg not (stepStoresToGlyphs_of_protected hp)
  all_goals rfl

theorem runSparesGlyphs_of_protected (cs : List Command) (hp : s.cfg.protectLow = true) :
    runSparesGlyphs cs s = true := by
  induction cs generalizing s with
  | nil => rfl
  | cons c rest ih =>
    rw [runSparesGlyphs, sparesGlyphs_of_protected c hp, Bool.true_and]
    cases hafter : stateAfter (runCommand c s) with
    | none => rfl
    | some t => exact ih ((Effect.of_runCommand hafter).cfg_eq ▸ hp)

/-- An unprotected store at I below 0x050 completes, so the check flags its STEP. -/
theorem stepStoresToGlyphs_of_low_store {x : Reg} (hp : s.cfg.protectLow = false)
    (hlow : s.i.toNat < 0x50) (h : Fetches s (.ldB x) ∨ Fetches s (.storeRegs x)) :
    stepStoresToGlyphs s = true := by
  have hprotect : s.advance.cfg.protectLow = true → 0x200 ≤ s.advance.i.toNat := fun h => by
    simp [hp] at h
  obtain hi | hi := h
  · exact stepStoresToGlyphs_of_fetches hi (exec_ldB_of_writable x (by simp; omega) hprotect)
      (meetsGlyphs_eq_true.mpr ⟨Nat.succ_pos _, hlow⟩)
  · exact stepStoresToGlyphs_of_fetches hi (exec_storeRegs_of_writable (by simp; omega) hprotect)
      (meetsGlyphs_eq_true.mpr ⟨Nat.succ_pos _, hlow⟩)

/-- Settles O58: a protected store begins at 0x200 or above; an unprotected one at I below 0x050
completes. -/
theorem protectionMeetsTheGlyphPremise : Obligations.ProtectionMeetsTheGlyphPremise :=
  ⟨fun c _ => sparesGlyphs_of_protected c, fun cs _ => runSparesGlyphs_of_protected cs,
    fun _ _ => stepStoresToGlyphs_of_low_store⟩

/-! ## The table stays intact -/

theorem glyphsIntact_resetWith (cfg : Config) (draws : Nat) :
    (State.resetWith cfg draws).glyphsIntact = true :=
  State.glyphsIntact_iff.mpr fun a _ => State.peek_resetWith cfg draws a

theorem Effect.glyphsIntact (he : Effect s t c) (hintact : s.glyphsIntact = true)
    (hspares : sparesGlyphs c s = true) : t.glyphsIntact = true := by
  by_cases hreset : c = .reset
  · subst hreset
    cases he
    case reset ht => exact ht ▸ glyphsIntact_resetWith s.cfg s.draws
    case keeps hmem hcfg _ _ => simpa only [State.glyphsIntact, State.peek, hmem, hcfg] using hintact
  · rw [State.glyphsIntact_iff] at hintact ⊢
    intro a ha
    obtain hsame | ⟨rfl, hflagged⟩ := he.peek_glyph hreset ha
    · rw [hsame, he.cfg_eq, hintact a ha]
    · simp [sparesGlyphs, hflagged] at hspares

/-- Settles O59: RESET writes the table, and a command that spares it changes no byte of it. -/
theorem sparingCommandKeepsTheGlyphTable : Obligations.SparingCommandKeepsTheGlyphTable :=
  fun _ _ _ hintact hspares hafter => (Effect.of_runCommand hafter).glyphsIntact hintact hspares

theorem glyphsIntact_runThrough (cs : List Command) (hintact : s.glyphsIntact = true)
    (hspares : runSparesGlyphs cs s = true) (h : runThrough cs s = some t) :
    t.glyphsIntact = true := by
  induction cs generalizing s with
  | nil => exact Option.some.inj h ▸ hintact
  | cons c rest ih =>
    rw [runThrough] at h
    rw [runSparesGlyphs, Bool.and_eq_true] at hspares
    obtain ⟨hc, hrest⟩ := hspares
    cases hafter : stateAfter (runCommand c s) with
    | none => simp [hafter] at h
    | some u =>
      rw [hafter] at h hrest
      exact ih ((Effect.of_runCommand hafter).glyphsIntact hintact hc) hrest h

/-- Settles O60: by induction on the run, and the intact table read byte by byte. -/
theorem checkedRunKeepsTheGlyphTable : Obligations.CheckedRunKeepsTheGlyphTable := by
  intro cs s t hintact hspares h
  have hend := glyphsIntact_runThrough cs hintact hspares h
  refine ⟨hend, fun a ha => ?_⟩
  rw [State.glyphsIntact_iff.mp hend a ha, resetByte_glyph t.cfg ha]

end Sys2Proof.Machine
end

section
/-! The writers of every element (`10_state.md` R20 to R35), each read off `instrWrites`. -/

namespace Sys2Proof.Machine

variable {s t : State} {i : Instr}

/-! ## Which instructions `instrWrites` names for an element -/

theorem instrWrites_regs {r : Reg} (h : r ∈ (instrWrites i s).regs) : WritesV i r := by
  cases i
  case loadRegs x =>
    have hlt : r.val < x.val + 1 := by simpa [instrWrites] using h
    exact Nat.le_of_lt_succ hlt
  case ldImm | addImm | ldReg | orReg | andReg | xorReg | rnd | ldVxDT | drw =>
    exact List.mem_singleton.mp h
  case addReg | subReg | shr | subn | shl => simpa [instrWrites, WritesV] using h
  all_goals exact absurd h List.not_mem_nil

theorem instrWrites_pc (h : (instrWrites i s).pc = true) : WritesPc i := by
  cases i
  case ret | jp | call | jpV0 | seImm | sneImm | seReg | sneReg | skp | sknp => trivial
  all_goals cases h

theorem instrWrites_draws (h : (instrWrites i s).draws = true) : ∃ x nn, i = .rnd x nn := by
  cases i
  case rnd x nn => exact ⟨x, nn, rfl⟩
  all_goals cases h

theorem instrWrites_index (h : (instrWrites i s).index = true) :
    (∃ nnn, i = .ldI nnn) ∨ (∃ x, i = .addI x) ∨ ∃ x, i = .ldF x := by
  cases i
  case ldI nnn => exact .inl ⟨nnn, rfl⟩
  case addI x => exact .inr (.inl ⟨x, rfl⟩)
  case ldF x => exact .inr (.inr ⟨x, rfl⟩)
  all_goals cases h

theorem instrWrites_stack (h : (instrWrites i s).stack = true) :
    (∃ nnn, i = .call nnn) ∨ ∃ u, i = .ret u := by
  cases i
  case call nnn => exact .inl ⟨nnn, rfl⟩
  case ret u => exact .inr ⟨u, rfl⟩
  all_goals cases h

theorem instrWrites_dt (h : (instrWrites i s).dt = true) : ∃ x, i = .ldDT x := by
  cases i
  case ldDT x => exact ⟨x, rfl⟩
  all_goals cases h

theorem instrWrites_st (h : (instrWrites i s).st = true) : ∃ x, i = .ldST x := by
  cases i
  case ldST x => exact ⟨x, rfl⟩
  all_goals cases h

theorem instrWrites_screen (h : (instrWrites i s).screen = true) :
    (∃ u, i = .cls u) ∨ ∃ x y n, i = .drw x y n := by
  cases i
  case cls u => exact .inl ⟨u, rfl⟩
  case drw x y n => exact .inr ⟨x, y, n, rfl⟩
  all_goals cases h

theorem instrWrites_keyWait_of_true (h : (instrWrites i s).keyWait = true) : ∃ x, i = .ldVxK x := by
  cases i
  case ldVxK x => exact ⟨x, rfl⟩
  all_goals cases h

theorem instrWrites_len (h : (instrWrites i s).len ≠ 0) :
    (∃ x, i = .ldB x) ∨ ∃ x, i = .storeRegs x := by
  cases i
  case ldB x => exact .inl ⟨x, rfl⟩
  case storeRegs x => exact .inr ⟨x, rfl⟩
  all_goals exact absurd rfl h

/-! ## What changed was named -/

/-- A clause of a frame read backwards: where it does not hold, its element is named. -/
theorem named_of_not_kept {named : Bool} {Kept : Prop} (hframe : named = false → Kept)
    (h : ¬Kept) : named = true :=
  Bool.eq_true_of_not_eq_false (mt hframe h)

theorem exec_ret_stack {u : Nibble} (h : exec (.ret u) s = .next t) : t.stack = s.stack := by
  obtain ⟨-, -, rfl⟩ := execRet_next h
  rfl

/-- The slots of the stack are CALL's alone: RET writes SP and keeps the slot it pops. -/
theorem exec_stack_changed (h : exec i s = .next t) (hne : t.stack ≠ s.stack) :
    ∃ nnn, i = .call nnn := by
  have hnamed := named_of_not_kept (exec_frame h).stack fun hkept => hne hkept.1
  obtain hcall | ⟨u, rfl⟩ := instrWrites_stack hnamed
  · exact hcall
  · exact absurd (exec_ret_stack h) hne

theorem exec_byte_changed (h : exec i s = .next t) {a : Nat} (hne : t.peek a ≠ s.peek a) :
    (∃ x, i = .ldB x) ∨ ∃ x, i = .storeRegs x :=
  instrWrites_len (s := s) fun hlen => hne ((exec_frame h).bytes a (by omega))

/-- Settles O47: in a wait a step changes nothing; otherwise the frame of the instruction it runs names
what changed, and only the instructions listed have that element in their frame. -/
theorem onlyTheListedInstructionsWrite : Obligations.OnlyTheListedInstructionsWrite := by
  intro s t h
  obtain ⟨hwait, rfl⟩ | ⟨i, hi, hexec⟩ := step_next_fetches h
  · simp [hwait]
  · have hframe := exec_frame hexec
    refine ⟨fun r hne => ⟨i, hi, ?regs⟩, fun _ => hi.awake, fun _ hne => ⟨i, hi, ?pc⟩, fun hne => ?draws,
      fun hne => ?index, fun hne => ?stack, fun hne => ?sp, fun hne => ?dt, fun hne => ?st,
      fun hne => ?screen, fun hne => ?keyWait, fun a hne => ?bytes, hframe.keys, hframe.cfg⟩
    case regs => exact instrWrites_regs (not_imp_comm.mp (hframe.regs r) hne)
    case pc => exact instrWrites_pc (named_of_not_kept hframe.pc hne)
    case draws =>
      obtain ⟨x, nn, rfl⟩ := instrWrites_draws (named_of_not_kept hframe.draws hne)
      exact ⟨x, nn, hi⟩
    case index =>
      obtain ⟨nnn, rfl⟩ | ⟨x, rfl⟩ | ⟨x, rfl⟩ := instrWrites_index (named_of_not_kept hframe.index hne)
      · exact .inl ⟨nnn, hi⟩
      · exact .inr (.inl ⟨x, hi⟩)
      · exact .inr (.inr ⟨x, hi⟩)
    case stack =>
      obtain ⟨nnn, rfl⟩ := exec_stack_changed hexec hne
      exact ⟨nnn, hi⟩
    case sp =>
      obtain ⟨nnn, rfl⟩ | ⟨u, rfl⟩ :=
        instrWrites_stack (named_of_not_kept hframe.stack fun hkept => hne hkept.2)
      · exact .inl ⟨nnn, hi⟩
      · exact .inr ⟨u, hi⟩
    case dt =>
      obtain ⟨x, rfl⟩ := instrWrites_dt (named_of_not_kept hframe.dt hne)
      exact ⟨x, hi⟩
    case st =>
      obtain ⟨x, rfl⟩ := instrWrites_st (named_of_not_kept hframe.st hne)
      exact ⟨x, hi⟩
    case screen =>
      obtain ⟨u, rfl⟩ | ⟨x, y, n, rfl⟩ := instrWrites_screen
        (named_of_not_kept hframe.screen fun hkept => hne.elim (· hkept.1) (· hkept.2))
      · exact .inl ⟨u, hi⟩
      · exact .inr ⟨x, y, n, hi⟩
    case keyWait =>
      obtain ⟨x, rfl⟩ := instrWrites_keyWait_of_true
        (named_of_not_kept hframe.keyWait fun hkept => hne.elim (· hkept.1) (· hkept.2))
      exact ⟨x, hi⟩
    case bytes =>
      obtain ⟨x, rfl⟩ | ⟨x, rfl⟩ := exec_byte_changed hexec hne
      · exact .inl ⟨x, hi⟩
      · exact .inr ⟨x, hi⟩

end Sys2Proof.Machine
end

section
/-! What a step does not read: the outputs to the adapters (`10_state.md` R29, R32, R37), and, but for
RND, the index of the random byte (`60_exceptions.md` section 6). -/

namespace Sys2Proof.Machine

variable {s t : State} {i : Instr} {f : Fault}

/-! ## The random byte -/

/-- The state with the index of the random byte assigned. -/
def State.withDraws (d : Nat) (s : State) : State := { s with draws := d }

theorem State.withDraws_skipIf (d : Nat) (s : State) (c : Bool) :
    (s.withDraws d).skipIf c = (s.skipIf c).withDraws d := by
  cases c <;> rfl

theorem State.withDraws_loadV (d : Nat) (s : State) (count : Nat) :
    (s.withDraws d).loadV count = (s.loadV count).withDraws d := by
  induction count with
  | zero => rfl
  | succ k ih => simp only [State.loadV, ih]; rfl

/-- No cause of an error is about the draws. -/
theorem Raises.withDraws (d : Nat) (h : Raises s i f) :
    Raises (s.withDraws d) i (mapFault (State.withDraws d) f) := by
  cases h <;> constructor <;> assumption

theorem exec_withDraws_next (d : Nat) (hi : ∀ x nn, i ≠ .rnd x nn) (h : exec i s = .next t) :
    exec i (s.withDraws d) = .next (t.withDraws d) := by
  cases i
  case rnd x nn => exact absurd rfl (hi x nn)
  case ret =>
    obtain ⟨hlt, hpos, rfl⟩ := execRet_next h
    exact execRet_of_entry (s := s.withDraws d) hpos hlt
  case call =>
    obtain ⟨hroom, rfl⟩ := execCall_next h
    exact execCall_of_room (s := s.withDraws d) hroom
  case skp x =>
    obtain ⟨hlt, rfl⟩ := execSkp_next h
    rw [← State.withDraws_skipIf]
    exact exec_skp_of_lt (s := s.withDraws d) hlt
  case sknp x =>
    obtain ⟨hlt, rfl⟩ := execSknp_next h
    rw [← State.withDraws_skipIf]
    exact exec_sknp_of_lt (s := s.withDraws d) hlt
  case drw => obtain ⟨hchecked, rfl⟩ := execDrw_next.mp h; exact execDrw_next.mpr ⟨hchecked, rfl⟩
  case ldB => obtain ⟨hchecked, rfl⟩ := execLdB_next.mp h; exact execLdB_next.mpr ⟨hchecked, rfl⟩
  case storeRegs =>
    obtain ⟨hchecked, rfl⟩ := execStoreRegs_next.mp h
    exact execStoreRegs_next.mpr ⟨hchecked, rfl⟩
  case loadRegs =>
    obtain ⟨hchecked, rfl⟩ := execLoadRegs_next.mp h
    exact execLoadRegs_next.mpr ⟨hchecked, (s.withDraws_loadV d _).symm⟩
  all_goals obtain rfl := Host.Outcome.next.inj h
  case seImm | sneImm | seReg | sneReg =>
    exact congrArg Host.Outcome.next (s.withDraws_skipIf d _)
  all_goals rfl

/-- Settles O55: a completion by `exec_withDraws_next`, an error by `Raises`, whose causes do not name
the draws. -/
theorem onlyRandomReadsTheDraw : Obligations.OnlyRandomReadsTheDraw := by
  intro i s d hi
  cases h : exec i s with
  | next t => exact exec_withDraws_next d hi h
  | fault f => exact exec_fault.mpr ((exec_fault.mp h).withDraws d)
  | refused r => exact absurd h (exec_ne_refused i s r)

/-! ## The outputs -/

variable {b : Bool} {z : Byte}

/-- The state with both outputs at a fixed value: what is left when they are not looked at. -/
def State.hideOutputs (s : State) : State := s.withOutputs false 0

theorem State.hideOutputs_skipIf (s : State) (c : Bool) :
    ((s.withOutputs b z).skipIf c).hideOutputs = (s.skipIf c).hideOutputs := by
  cases c <;> rfl

theorem State.withOutputs_loadV (s : State) (count : Nat) :
    (s.withOutputs b z).loadV count = (s.loadV count).withOutputs b z := by
  induction count with
  | zero => rfl
  | succ k ih => simp only [State.loadV, ih]; rfl

/-- No cause of an error is about the outputs. -/
theorem Raises.withOutputs (h : Raises s i f) :
    Raises (s.withOutputs b z) i (mapFault (fun t => t.withOutputs b z) f) := by
  cases h <;> constructor <;> assumption

theorem mapFault_hideOutputs (f : Fault) :
    mapFault State.hideOutputs (mapFault (fun t => t.withOutputs b z) f) =
      mapFault State.hideOutputs f := by
  cases f <;> rfl

theorem exec_withOutputs_next (h : exec i s = .next t) :
    ∃ u, exec i (s.withOutputs b z) = .next u ∧ u.hideOutputs = t.hideOutputs := by
  cases i
  case ret =>
    obtain ⟨hlt, hpos, rfl⟩ := execRet_next h
    exact ⟨_, execRet_of_entry (s := s.withOutputs b z) hpos hlt, rfl⟩
  case call =>
    obtain ⟨hroom, rfl⟩ := execCall_next h
    exact ⟨_, execCall_of_room (s := s.withOutputs b z) hroom, rfl⟩
  case skp x =>
    obtain ⟨hlt, rfl⟩ := execSkp_next h
    exact ⟨_, exec_skp_of_lt (s := s.withOutputs b z) hlt, s.hideOutputs_skipIf _⟩
  case sknp x =>
    obtain ⟨hlt, rfl⟩ := execSknp_next h
    exact ⟨_, exec_sknp_of_lt (s := s.withOutputs b z) hlt, s.hideOutputs_skipIf _⟩
  case drw =>
    obtain ⟨hchecked, rfl⟩ := execDrw_next.mp h
    exact ⟨_, (execDrw_next (s := s.withOutputs b z)).mpr ⟨hchecked, rfl⟩, rfl⟩
  case ldB =>
    obtain ⟨hchecked, rfl⟩ := execLdB_next.mp h
    exact ⟨_, (execLdB_next (s := s.withOutputs b z)).mpr ⟨hchecked, rfl⟩, rfl⟩
  case storeRegs =>
    obtain ⟨hchecked, rfl⟩ := execStoreRegs_next.mp h
    exact ⟨_, (execStoreRegs_next (s := s.withOutputs b z)).mpr ⟨hchecked, rfl⟩, rfl⟩
  case loadRegs =>
    obtain ⟨hchecked, rfl⟩ := execLoadRegs_next.mp h
    refine ⟨_, (execLoadRegs_next (s := s.withOutputs b z)).mpr ⟨hchecked, rfl⟩, ?_⟩
    rw [State.withOutputs_loadV]
    rfl
  all_goals obtain rfl := Host.Outcome.next.inj h
  case seImm | sneImm | seReg | sneReg => exact ⟨_, rfl, s.hideOutputs_skipIf _⟩
  all_goals exact ⟨_, rfl, rfl⟩

theorem exec_withOutputs (i : Instr) (s : State) :
    mapOutcome State.hideOutputs (exec i (s.withOutputs b z)) =
      mapOutcome State.hideOutputs (exec i s) := by
  cases h : exec i s with
  | next t =>
    obtain ⟨u, hu, hhidden⟩ := exec_withOutputs_next (b := b) (z := z) h
    rw [hu]
    exact congrArg Host.Outcome.next hhidden
  | fault f =>
    rw [exec_fault.mpr ((exec_fault.mp h).withOutputs (b := b) (z := z))]
    exact congrArg Host.Outcome.fault (mapFault_hideOutputs f)
  | refused r => exact absurd h (exec_ne_refused i s r)

/-- Settles O54: the key wait, the checks of the fetch and the word are the same in both states, and
the instruction does the same by `exec_withOutputs`. -/
theorem programsCannotSeeTheOutputs : Obligations.ProgramsCannotSeeTheOutputs := by
  intro s b z
  cases hs : s.awaitingKey with
  | true => rw [step_of_waiting hs, step_of_waiting (s := s.withOutputs b z) hs]; rfl
  | false =>
    cases he : fetchError s.pc with
    | some e =>
      rw [step_of_fetchError hs he, step_of_fetchError (s := s.withOutputs b z) hs he]
      obtain ⟨rfl, -⟩ | ⟨rfl, -⟩ | ⟨rfl, -⟩ := fetchError_eq_some he <;> rfl
    | none =>
      have hok := fetchOk_iff.mpr he
      have hok' : FetchOk (s.withOutputs b z) := fetchOk_iff.mpr he
      cases hd : decodeWord s.cfg.strictDecode (s.fetchWord s.pc) with
      | rejected e =>
        rw [step_of_rejected hs hok hd, step_of_rejected (s := s.withOutputs b z) hs hok' hd]
        rfl
      | accepted i =>
        rw [step_of_fetches ⟨hs, hok, hd⟩, step_of_fetches (s := s.withOutputs b z) ⟨hs, hok', hd⟩]
        exact exec_withOutputs i s.advance

end Sys2Proof.Machine
end
